-- ==== Sys2Proof/Word.lean ====
section
/-! DEFINITION. The word types of the core: a 32-bit word, an 8-bit byte, a 5-bit register number
(spec/00_scope.md R8, spec/10_state.md R20, spec/20_memory.md R40). -/

namespace Sys2Proof

/-- A 32-bit pattern: a register, `pc`, an address, an instruction word (R8, R20). -/
abbrev Word := BitVec 32

/-- One byte of memory, the addressable unit (R8, R40). -/
abbrev Byte := BitVec 8

/-- A register number as the 5-bit fields `rd`, `rs1`, `rs2` hold it (R20, R23, R72). -/
abbrev RegIdx := BitVec 5

end Sys2Proof
end

