-- ==== Sys2Proof/Syntax.lean ====
section
/-! DEFINITION. The instructions, one constructor for each row of spec/opcode_table.json, in the table's order
(spec/30_encoding.md R90). An `imm` field is the 32-bit `imm` of the decoder's Operand: its bits at their final
positions, NOT sign-extended (R13, R76); `WellFormed.lean` says which of its bits a format can carry. A field the
decoder carries and no rule examines (JALR's `funct3`, SLLI's `funct7`, the fields of FENCE, ECALL and the SYSTEM
no-ops) is kept, so that an instruction determines its Operand (DESIGN CHOICE, notes/assumptions/9.md). -/

namespace Sys2Proof

/-- One RV32I instruction of this core. -/
inductive Instr where
  /-- R120 -/
  | lui (rd : RegIdx) (imm : Word)
  /-- R121 -/
  | auipc (rd : RegIdx) (imm : Word)
  /-- R130 -/
  | jal (rd : RegIdx) (imm : Word)
  /-- R131; `funct3` is not examined -/
  | jalr (rd : RegIdx) (funct3 : BitVec 3) (rs1 : RegIdx) (imm : Word)
  /-- R141 -/
  | beq (rs1 rs2 : RegIdx) (imm : Word)
  /-- R142 -/
  | bne (rs1 rs2 : RegIdx) (imm : Word)
  /-- R143 -/
  | blt (rs1 rs2 : RegIdx) (imm : Word)
  /-- R144 -/
  | bge (rs1 rs2 : RegIdx) (imm : Word)
  /-- R145 -/
  | bltu (rs1 rs2 : RegIdx) (imm : Word)
  /-- R146 -/
  | bgeu (rs1 rs2 : RegIdx) (imm : Word)
  /-- R161 -/
  | lb (rd rs1 : RegIdx) (imm : Word)
  /-- R162 -/
  | lh (rd rs1 : RegIdx) (imm : Word)
  /-- R163 -/
  | lw (rd rs1 : RegIdx) (imm : Word)
  /-- R164 -/
  | lbu (rd rs1 : RegIdx) (imm : Word)
  /-- R165 -/
  | lhu (rd rs1 : RegIdx) (imm : Word)
  /-- R181: base `rs1`, data `rs2` -/
  | sb (rs1 rs2 : RegIdx) (imm : Word)
  /-- R182 -/
  | sh (rs1 rs2 : RegIdx) (imm : Word)
  /-- R183 -/
  | sw (rs1 rs2 : RegIdx) (imm : Word)
  /-- R191 -/
  | addi (rd rs1 : RegIdx) (imm : Word)
  /-- R192 -/
  | slti (rd rs1 : RegIdx) (imm : Word)
  /-- R193 -/
  | sltiu (rd rs1 : RegIdx) (imm : Word)
  /-- R194 -/
  | xori (rd rs1 : RegIdx) (imm : Word)
  /-- R195 -/
  | ori (rd rs1 : RegIdx) (imm : Word)
  /-- R196 -/
  | andi (rd rs1 : RegIdx) (imm : Word)
  /-- R197; `funct7` is not examined -/
  | slli (rd rs1 : RegIdx) (funct7 : BitVec 7) (shamt : BitVec 5)
  /-- R198 -/
  | srli (rd rs1 : RegIdx) (shamt : BitVec 5)
  /-- R199 -/
  | srai (rd rs1 : RegIdx) (shamt : BitVec 5)
  /-- R211 -/
  | add (rd rs1 rs2 : RegIdx)
  /-- R212 -/
  | sub (rd rs1 rs2 : RegIdx)
  /-- R213 -/
  | sll (rd rs1 rs2 : RegIdx)
  /-- R214 -/
  | slt (rd rs1 rs2 : RegIdx)
  /-- R215 -/
  | sltu (rd rs1 rs2 : RegIdx)
  /-- R216 -/
  | xor (rd rs1 rs2 : RegIdx)
  /-- R217 -/
  | srl (rd rs1 rs2 : RegIdx)
  /-- R218 -/
  | sra (rd rs1 rs2 : RegIdx)
  /-- R219 -/
  | or (rd rs1 rs2 : RegIdx)
  /-- R220 -/
  | and (rd rs1 rs2 : RegIdx)
  /-- R230: every MISC-MEM word; the decoder drops `word[31:20]` (R86) -/
  | fence (rd : RegIdx) (funct3 : BitVec 3) (rs1 : RegIdx)
  /-- R236: every SYSTEM word with `funct7 = 0` and `funct3 = 0`; `word[24:20]` reaches nothing (R87) -/
  | ecall (rd rs1 : RegIdx)
  /-- R237, `funct3 = 001` -/
  | sysNopF1 (funct7 : BitVec 7) (rd rs1 : RegIdx)
  /-- R237, `funct3 = 010` -/
  | sysNopF2 (funct7 : BitVec 7) (rd rs1 : RegIdx)
  /-- R237, `funct3 = 011` -/
  | sysNopF3 (funct7 : BitVec 7) (rd rs1 : RegIdx)
  /-- R237, `funct3 = 100` -/
  | sysNopF4 (funct7 : BitVec 7) (rd rs1 : RegIdx)
  /-- R237, `funct3 = 101` -/
  | sysNopF5 (funct7 : BitVec 7) (rd rs1 : RegIdx)
  /-- R237, `funct3 = 110` -/
  | sysNopF6 (funct7 : BitVec 7) (rd rs1 : RegIdx)
  /-- R237, `funct3 = 111` -/
  | sysNopF7 (funct7 : BitVec 7) (rd rs1 : RegIdx)
  /-- R237, `funct3 = 000`, the lowest set bit of `funct7` is bit 0 -/
  | sysNopB0 (funct7 : BitVec 7) (rd rs1 : RegIdx)
  /-- R237, `funct3 = 000`, the lowest set bit of `funct7` is bit 1 -/
  | sysNopB1 (funct7 : BitVec 7) (rd rs1 : RegIdx)
  /-- R237, `funct3 = 000`, the lowest set bit of `funct7` is bit 2 -/
  | sysNopB2 (funct7 : BitVec 7) (rd rs1 : RegIdx)
  /-- R237, `funct3 = 000`, the lowest set bit of `funct7` is bit 3 -/
  | sysNopB3 (funct7 : BitVec 7) (rd rs1 : RegIdx)
  /-- R237, `funct3 = 000`, the lowest set bit of `funct7` is bit 4 -/
  | sysNopB4 (funct7 : BitVec 7) (rd rs1 : RegIdx)
  /-- R237, `funct3 = 000`, the lowest set bit of `funct7` is bit 5 -/
  | sysNopB5 (funct7 : BitVec 7) (rd rs1 : RegIdx)
  /-- R237, `funct3 = 000`, the lowest set bit of `funct7` is bit 6 -/
  | sysNopB6 (funct7 : BitVec 7) (rd rs1 : RegIdx)
  deriving DecidableEq, Repr

end Sys2Proof
end

