-- ==== Sys2Proof/WellFormed.lean ====
section
/-! DEFINITION. Which instructions an encoding can carry (spec/30_encoding.md R80 to R84, R97): every bit of `imm`
outside the format's range is zero, and a SYSTEM no-op with `funct3 = 000` has the `funct7` bits its table row fixes. -/

namespace Sys2Proof

/-- U: `imm[11:0] = 0` (R80). -/
def immFitsU (imm : Word) : Bool := imm.extractLsb' 0 12 == 0

/-- J: `imm[0] = 0` and `imm[31:21] = 0` (R81). -/
def immFitsJ (imm : Word) : Bool := imm.extractLsb' 0 1 == 0 && imm.extractLsb' 21 11 == 0

/-- I and S: `imm[31:12] = 0` (R82, R83). -/
def immFits12 (imm : Word) : Bool := imm.extractLsb' 12 20 == 0

/-- B: `imm[0] = 0` and `imm[31:13] = 0` (R84). -/
def immFitsB (imm : Word) : Bool := imm.extractLsb' 0 1 == 0 && imm.extractLsb' 13 19 == 0

/-- The lowest set bit of `funct7` is bit `k` (R237, the rows of the table with `funct3 = 000`). -/
def lowestSetBit (k : Nat) (funct7 : BitVec 7) : Bool :=
  funct7.extractLsb' 0 (k + 1) == BitVec.ofNat (k + 1) (2 ^ k)

/-- The instruction has an encoding that decodes back to it. -/
def Instr.wf : Instr → Bool
  | .lui _ imm | .auipc _ imm => immFitsU imm
  | .jal _ imm => immFitsJ imm
  | .jalr _ _ _ imm => immFits12 imm
  | .beq _ _ imm | .bne _ _ imm | .blt _ _ imm | .bge _ _ imm | .bltu _ _ imm | .bgeu _ _ imm => immFitsB imm
  | .lb _ _ imm | .lh _ _ imm | .lw _ _ imm | .lbu _ _ imm | .lhu _ _ imm => immFits12 imm
  | .sb _ _ imm | .sh _ _ imm | .sw _ _ imm => immFits12 imm
  | .addi _ _ imm | .slti _ _ imm | .sltiu _ _ imm | .xori _ _ imm | .ori _ _ imm | .andi _ _ imm => immFits12 imm
  | .slli _ _ _ _ | .srli _ _ _ | .srai _ _ _ => true
  | .add _ _ _ | .sub _ _ _ | .sll _ _ _ | .slt _ _ _ | .sltu _ _ _ => true
  | .xor _ _ _ | .srl _ _ _ | .sra _ _ _ | .or _ _ _ | .and _ _ _ => true
  | .fence _ _ _ | .ecall _ _ => true
  | .sysNopF1 _ _ _ | .sysNopF2 _ _ _ | .sysNopF3 _ _ _ | .sysNopF4 _ _ _ => true
  | .sysNopF5 _ _ _ | .sysNopF6 _ _ _ | .sysNopF7 _ _ _ => true
  | .sysNopB0 funct7 _ _ => lowestSetBit 0 funct7
  | .sysNopB1 funct7 _ _ => lowestSetBit 1 funct7
  | .sysNopB2 funct7 _ _ => lowestSetBit 2 funct7
  | .sysNopB3 funct7 _ _ => lowestSetBit 3 funct7
  | .sysNopB4 funct7 _ _ => lowestSetBit 4 funct7
  | .sysNopB5 funct7 _ _ => lowestSetBit 5 funct7
  | .sysNopB6 funct7 _ _ => lowestSetBit 6 funct7

end Sys2Proof
end

