-- ==== Sys2Proof/Decode.lean ====
section
/-! DEFINITION. The combinational decoder (spec/30_encoding.md R70 to R88), the choice of the instruction inside a
kind (R90, R92), the encoder from the same formats (R71), and the opcode table's masks (spec/opcode_table.json).

The decoder proper is `decodeOperand` (R77): it looks at the opcode only, so it rejects with `UnsupportedOpcode`
alone. `Operand.select` is the first thing execution does (R90): it rejects with `UnsupportedFunct` (R92). `decode`
is the two in a row. -/

namespace Sys2Proof

/-- The eleven kinds, in the source's order (R73, R75). -/
inductive Kind where
  | lui | auipc | jal | jalr | branch | load | store | opImm | op | miscMem | system
  deriving DecidableEq, Repr

/-- Why a word stands for no instruction (R91, R92). -/
inductive DecodeError where
  /-- `word[6:0]` is none of the eleven opcodes (R78). -/
  | unsupportedOpcode
  /-- A recognised opcode with a `funct3`/`funct7` that selects nothing (R92). -/
  | unsupportedFunct
  deriving DecidableEq, Repr

/-- The decoder's output record (R75, R76); `imm` is not sign-extended. -/
structure Operand where
  kind : Kind
  opcode : BitVec 7
  rd : RegIdx
  funct3 : BitVec 3
  rs1 : RegIdx
  rs2 : RegIdx
  funct7 : BitVec 7
  imm : Word
  deriving DecidableEq, Repr

/-- The 7-bit major opcode of a kind (R73). PRESUMED: ten of the values are decision D1 (notes/assumptions/7.md). -/
def Kind.opcode : Kind → BitVec 7
  | .load    => 0b0000011
  | .miscMem => 0b0001111
  | .opImm   => 0b0010011
  | .auipc   => 0b0010111
  | .store   => 0b0100011
  | .op      => 0b0110011
  | .lui     => 0b0110111
  | .branch  => 0b1100011
  | .jalr    => 0b1100111
  | .jal     => 0b1101111
  | .system  => 0b1110011

/-- All eleven kinds (R73). -/
def Kind.all : List Kind :=
  [.lui, .auipc, .jal, .jalr, .branch, .load, .store, .opImm, .op, .miscMem, .system]

/-- The kind whose opcode is `opc`, if there is one (R77, R78). -/
def Kind.ofOpcode (opc : BitVec 7) : Option Kind := Kind.all.find? fun k => k.opcode == opc

/-! ### Fields (R10, R72) -/

/-- `word[hi:lo]` as an unsigned number of 32 bits (R10). -/
def field (w : Word) (hi lo : Nat) : Word := (w.extractLsb' lo (hi - lo + 1)).setWidth 32

/-- `opcode = word[6:0]` (R72). -/
def opcodeField (w : Word) : BitVec 7 := w.extractLsb' 0 7
/-- `rd = word[11:7]` (R72). -/
def rdField (w : Word) : RegIdx := w.extractLsb' 7 5
/-- `funct3 = word[14:12]` (R72). -/
def funct3Field (w : Word) : BitVec 3 := w.extractLsb' 12 3
/-- `rs1 = word[19:15]` (R72). -/
def rs1Field (w : Word) : RegIdx := w.extractLsb' 15 5
/-- `rs2 = word[24:20]` (R72). -/
def rs2Field (w : Word) : RegIdx := w.extractLsb' 20 5
/-- `funct7 = word[31:25]` (R72). -/
def funct7Field (w : Word) : BitVec 7 := w.extractLsb' 25 7

/-! ### Immediates (R80 to R87): bits at their final positions, zeros elsewhere -/

/-- LUI, AUIPC: `word[31:12] << 12` (R80). -/
def immU (w : Word) : Word := field w 31 12 <<< 12

/-- JAL: `word[31] << 20 | word[19:12] << 12 | word[20] << 11 | word[30:21] << 1` (R81). -/
def immJ (w : Word) : Word :=
  field w 31 31 <<< 20 ||| field w 19 12 <<< 12 ||| field w 20 20 <<< 11 ||| field w 30 21 <<< 1

/-- JALR, LOAD, OP-IMM: `word[31:20]` (R82). -/
def immI (w : Word) : Word := field w 31 20

/-- STORE: `word[31:25] << 5 | word[11:7]` (R83). -/
def immS (w : Word) : Word := field w 31 25 <<< 5 ||| field w 11 7

/-- BRANCH: `word[31] << 12 | word[7] << 11 | word[30:25] << 5 | word[11:8] << 1` (R84). -/
def immB (w : Word) : Word :=
  field w 31 31 <<< 12 ||| field w 7 7 <<< 11 ||| field w 30 25 <<< 5 ||| field w 11 8 <<< 1

/-- OP: the `rs2` field, `word[24:20]` (R85); no rule reads it. -/
def immOp (w : Word) : Word := field w 24 20

/-- SYSTEM: `word[19:15]` (R87); no rule reads it. -/
def immSystem (w : Word) : Word := field w 19 15

/-! ### The decoder block (R76, R77) -/

/-- The Operand of a word of the given kind: each kind's row of R76's table. -/
def Operand.ofKind (k : Kind) (w : Word) : Operand :=
  let opc := opcodeField w
  match k with
  | .lui     => ⟨.lui, opc, rdField w, 0, 0, 0, 0, immU w⟩
  | .auipc   => ⟨.auipc, opc, rdField w, 0, 0, 0, 0, immU w⟩
  | .jal     => ⟨.jal, opc, rdField w, 0, 0, 0, 0, immJ w⟩
  | .jalr    => ⟨.jalr, opc, rdField w, funct3Field w, rs1Field w, 0, 0, immI w⟩
  | .load    => ⟨.load, opc, rdField w, funct3Field w, rs1Field w, 0, 0, immI w⟩
  | .opImm   => ⟨.opImm, opc, rdField w, funct3Field w, rs1Field w, 0, funct7Field w, immI w⟩
  | .store   => ⟨.store, opc, 0, funct3Field w, rs1Field w, rs2Field w, 0, immS w⟩
  | .branch  => ⟨.branch, opc, 0, funct3Field w, rs1Field w, rs2Field w, 0, immB w⟩
  | .op      => ⟨.op, opc, rdField w, funct3Field w, rs1Field w, rs2Field w, funct7Field w, immOp w⟩
  | .miscMem => ⟨.miscMem, opc, rdField w, funct3Field w, rs1Field w, 0, 0, 0⟩
  | .system  => ⟨.system, opc, rdField w, funct3Field w, rs1Field w, 0, funct7Field w, immSystem w⟩

/-- The spec's `decode(word)` (R77): an Operand, or `none` for `UnsupportedOpcode` (R78, R79). -/
def decodeOperand (w : Word) : Option Operand :=
  (Kind.ofOpcode (opcodeField w)).map fun k => Operand.ofKind k w

/-! ### The instruction inside a kind (R90, R92) -/

/-- The shift amount of an immediate shift, `imm[4:0]` (R89). -/
def Operand.shamt (o : Operand) : BitVec 5 := o.imm.extractLsb' 0 5

/-- BRANCH by `funct3`; `010` and `011` select nothing (R147). -/
def Operand.selectBranch (o : Operand) : Option Instr :=
  match o.funct3 with
  | 0b000#3 => some (.beq o.rs1 o.rs2 o.imm)
  | 0b001#3 => some (.bne o.rs1 o.rs2 o.imm)
  | 0b100#3 => some (.blt o.rs1 o.rs2 o.imm)
  | 0b101#3 => some (.bge o.rs1 o.rs2 o.imm)
  | 0b110#3 => some (.bltu o.rs1 o.rs2 o.imm)
  | 0b111#3 => some (.bgeu o.rs1 o.rs2 o.imm)
  | _ => none

/-- LOAD by `funct3`; `011`, `110` and `111` select nothing (R166). -/
def Operand.selectLoad (o : Operand) : Option Instr :=
  match o.funct3 with
  | 0b000#3 => some (.lb o.rd o.rs1 o.imm)
  | 0b001#3 => some (.lh o.rd o.rs1 o.imm)
  | 0b010#3 => some (.lw o.rd o.rs1 o.imm)
  | 0b100#3 => some (.lbu o.rd o.rs1 o.imm)
  | 0b101#3 => some (.lhu o.rd o.rs1 o.imm)
  | _ => none

/-- STORE by `funct3`; `011` to `111` select nothing (R184). -/
def Operand.selectStore (o : Operand) : Option Instr :=
  match o.funct3 with
  | 0b000#3 => some (.sb o.rs1 o.rs2 o.imm)
  | 0b001#3 => some (.sh o.rs1 o.rs2 o.imm)
  | 0b010#3 => some (.sw o.rs1 o.rs2 o.imm)
  | _ => none

/-- OP-IMM with `funct3 = 101` by `funct7`; any other value selects nothing (R198 to R200). -/
def Operand.selectShiftRight (o : Operand) : Option Instr :=
  match o.funct7 with
  | 0b0000000#7 => some (.srli o.rd o.rs1 o.shamt)
  | 0b0100000#7 => some (.srai o.rd o.rs1 o.shamt)
  | _ => none

/-- OP-IMM by `funct3`; SLLI does not look at `funct7` (R190, R197). -/
def Operand.selectOpImm (o : Operand) : Option Instr :=
  match o.funct3 with
  | 0b000#3 => some (.addi o.rd o.rs1 o.imm)
  | 0b010#3 => some (.slti o.rd o.rs1 o.imm)
  | 0b011#3 => some (.sltiu o.rd o.rs1 o.imm)
  | 0b100#3 => some (.xori o.rd o.rs1 o.imm)
  | 0b110#3 => some (.ori o.rd o.rs1 o.imm)
  | 0b111#3 => some (.andi o.rd o.rs1 o.imm)
  | 0b001#3 => some (.slli o.rd o.rs1 o.funct7 o.shamt)
  | _ => o.selectShiftRight

/-- OP by the pair (`funct7`, `funct3`); every pair but the ten selects nothing (R210, R221). -/
def Operand.selectOp (o : Operand) : Option Instr :=
  match o.funct7, o.funct3 with
  | 0b0000000#7, 0b000#3 => some (.add o.rd o.rs1 o.rs2)
  | 0b0100000#7, 0b000#3 => some (.sub o.rd o.rs1 o.rs2)
  | 0b0000000#7, 0b001#3 => some (.sll o.rd o.rs1 o.rs2)
  | 0b0000000#7, 0b010#3 => some (.slt o.rd o.rs1 o.rs2)
  | 0b0000000#7, 0b011#3 => some (.sltu o.rd o.rs1 o.rs2)
  | 0b0000000#7, 0b100#3 => some (.xor o.rd o.rs1 o.rs2)
  | 0b0000000#7, 0b101#3 => some (.srl o.rd o.rs1 o.rs2)
  | 0b0100000#7, 0b101#3 => some (.sra o.rd o.rs1 o.rs2)
  | 0b0000000#7, 0b110#3 => some (.or o.rd o.rs1 o.rs2)
  | 0b0000000#7, 0b111#3 => some (.and o.rd o.rs1 o.rs2)
  | _, _ => none

/-- The SYSTEM no-op of a word with `funct3 = 000` and `funct7 != 0`: the table's seven rows for the lowest set
bit of `funct7` (R237). -/
def Operand.selectSysNopZero (o : Operand) : Instr :=
  if o.funct7.getLsbD 0 then .sysNopB0 o.funct7 o.rd o.rs1
  else if o.funct7.getLsbD 1 then .sysNopB1 o.funct7 o.rd o.rs1
  else if o.funct7.getLsbD 2 then .sysNopB2 o.funct7 o.rd o.rs1
  else if o.funct7.getLsbD 3 then .sysNopB3 o.funct7 o.rd o.rs1
  else if o.funct7.getLsbD 4 then .sysNopB4 o.funct7 o.rd o.rs1
  else if o.funct7.getLsbD 5 then .sysNopB5 o.funct7 o.rd o.rs1
  else .sysNopB6 o.funct7 o.rd o.rs1

/-- SYSTEM: ECALL when `funct7 = 0` and `funct3 = 0`, else a no-op (R235 to R237). -/
def Operand.selectSystem (o : Operand) : Instr :=
  match o.funct3 with
  | 0b001#3 => .sysNopF1 o.funct7 o.rd o.rs1
  | 0b010#3 => .sysNopF2 o.funct7 o.rd o.rs1
  | 0b011#3 => .sysNopF3 o.funct7 o.rd o.rs1
  | 0b100#3 => .sysNopF4 o.funct7 o.rd o.rs1
  | 0b101#3 => .sysNopF5 o.funct7 o.rd o.rs1
  | 0b110#3 => .sysNopF6 o.funct7 o.rd o.rs1
  | 0b111#3 => .sysNopF7 o.funct7 o.rd o.rs1
  | _ => if o.funct7 = 0 then .ecall o.rd o.rs1 else o.selectSysNopZero

/-- The instruction an Operand stands for (R90), or `none` for `UnsupportedFunct` (R92). -/
def Operand.select (o : Operand) : Option Instr :=
  match o.kind with
  | .lui     => some (.lui o.rd o.imm)
  | .auipc   => some (.auipc o.rd o.imm)
  | .jal     => some (.jal o.rd o.imm)
  | .jalr    => some (.jalr o.rd o.funct3 o.rs1 o.imm)
  | .branch  => o.selectBranch
  | .load    => o.selectLoad
  | .store   => o.selectStore
  | .opImm   => o.selectOpImm
  | .op      => o.selectOp
  | .miscMem => some (.fence o.rd o.funct3 o.rs1)
  | .system  => some o.selectSystem

/-- The instruction of a word, or why there is none: the decoder and the selection in a row. -/
def decode (w : Word) : Except DecodeError Instr :=
  match decodeOperand w with
  | none => .error .unsupportedOpcode
  | some o =>
    match o.select with
    | none => .error .unsupportedFunct
    | some i => .ok i

/-- The word of an instruction whose bits, numbered as spec/opcode_table.json numbers them, are `w`. An instruction
is one little-endian word (R42, R70), so the table's bit `k` is `word[k]`. -/
def tableWord (nbits w : Nat) : Word := BitVec.ofNat 32 (w % 2 ^ nbits)

/-- What the decoder reads from the instruction whose `nbits` bits are `w`. -/
def decodeTableWord (nbits w : Nat) : Option Instr :=
  match decode (tableWord nbits w) with
  | .ok i => some i
  | .error _ => none

/-! ### The encoder, from the formats of R71 (bit 31 at the left) -/

/-- R format (R71). -/
def encodeR (k : Kind) (funct7 : BitVec 7) (rs2 rs1 : RegIdx) (funct3 : BitVec 3) (rd : RegIdx) : Word :=
  funct7 ++ rs2 ++ rs1 ++ funct3 ++ rd ++ k.opcode

/-- I format (R71). -/
def encodeI (k : Kind) (imm : Word) (rs1 : RegIdx) (funct3 : BitVec 3) (rd : RegIdx) : Word :=
  imm.extractLsb' 0 12 ++ rs1 ++ funct3 ++ rd ++ k.opcode

/-- S format (R71). -/
def encodeS (imm : Word) (rs2 rs1 : RegIdx) (funct3 : BitVec 3) : Word :=
  imm.extractLsb' 5 7 ++ rs2 ++ rs1 ++ funct3 ++ imm.extractLsb' 0 5 ++ Kind.store.opcode

/-- B format (R71). -/
def encodeB (imm : Word) (rs2 rs1 : RegIdx) (funct3 : BitVec 3) : Word :=
  imm.extractLsb' 12 1 ++ imm.extractLsb' 5 6 ++ rs2 ++ rs1 ++ funct3 ++ imm.extractLsb' 1 4 ++
    imm.extractLsb' 11 1 ++ Kind.branch.opcode

/-- U format (R71). -/
def encodeU (k : Kind) (imm : Word) (rd : RegIdx) : Word :=
  imm.extractLsb' 12 20 ++ rd ++ k.opcode

/-- J format (R71). -/
def encodeJ (imm : Word) (rd : RegIdx) : Word :=
  imm.extractLsb' 20 1 ++ imm.extractLsb' 1 10 ++ imm.extractLsb' 11 1 ++ imm.extractLsb' 12 8 ++ rd ++
    Kind.jal.opcode

/-- SYSTEM words. DESIGN CHOICE: the bits no Operand carries are zero (R87, notes/assumptions/10.md), as they are in the
MISC-MEM words of `encode` (R86). -/
def encodeSystem (funct7 : BitVec 7) (rs1 : RegIdx) (funct3 : BitVec 3) (rd : RegIdx) : Word :=
  encodeR .system funct7 0 rs1 funct3 rd

/-- The word of an instruction; for a well-formed one it decodes back to it (R97). -/
def encode : Instr → Word
  | .lui rd imm => encodeU .lui imm rd
  | .auipc rd imm => encodeU .auipc imm rd
  | .jal rd imm => encodeJ imm rd
  | .jalr rd funct3 rs1 imm => encodeI .jalr imm rs1 funct3 rd
  | .beq rs1 rs2 imm => encodeB imm rs2 rs1 0b000
  | .bne rs1 rs2 imm => encodeB imm rs2 rs1 0b001
  | .blt rs1 rs2 imm => encodeB imm rs2 rs1 0b100
  | .bge rs1 rs2 imm => encodeB imm rs2 rs1 0b101
  | .bltu rs1 rs2 imm => encodeB imm rs2 rs1 0b110
  | .bgeu rs1 rs2 imm => encodeB imm rs2 rs1 0b111
  | .lb rd rs1 imm => encodeI .load imm rs1 0b000 rd
  | .lh rd rs1 imm => encodeI .load imm rs1 0b001 rd
  | .lw rd rs1 imm => encodeI .load imm rs1 0b010 rd
  | .lbu rd rs1 imm => encodeI .load imm rs1 0b100 rd
  | .lhu rd rs1 imm => encodeI .load imm rs1 0b101 rd
  | .sb rs1 rs2 imm => encodeS imm rs2 rs1 0b000
  | .sh rs1 rs2 imm => encodeS imm rs2 rs1 0b001
  | .sw rs1 rs2 imm => encodeS imm rs2 rs1 0b010
  | .addi rd rs1 imm => encodeI .opImm imm rs1 0b000 rd
  | .slti rd rs1 imm => encodeI .opImm imm rs1 0b010 rd
  | .sltiu rd rs1 imm => encodeI .opImm imm rs1 0b011 rd
  | .xori rd rs1 imm => encodeI .opImm imm rs1 0b100 rd
  | .ori rd rs1 imm => encodeI .opImm imm rs1 0b110 rd
  | .andi rd rs1 imm => encodeI .opImm imm rs1 0b111 rd
  | .slli rd rs1 funct7 shamt => encodeR .opImm funct7 shamt rs1 0b001 rd
  | .srli rd rs1 shamt => encodeR .opImm 0b0000000 shamt rs1 0b101 rd
  | .srai rd rs1 shamt => encodeR .opImm 0b0100000 shamt rs1 0b101 rd
  | .add rd rs1 rs2 => encodeR .op 0b0000000 rs2 rs1 0b000 rd
  | .sub rd rs1 rs2 => encodeR .op 0b0100000 rs2 rs1 0b000 rd
  | .sll rd rs1 rs2 => encodeR .op 0b0000000 rs2 rs1 0b001 rd
  | .slt rd rs1 rs2 => encodeR .op 0b0000000 rs2 rs1 0b010 rd
  | .sltu rd rs1 rs2 => encodeR .op 0b0000000 rs2 rs1 0b011 rd
  | .xor rd rs1 rs2 => encodeR .op 0b0000000 rs2 rs1 0b100 rd
  | .srl rd rs1 rs2 => encodeR .op 0b0000000 rs2 rs1 0b101 rd
  | .sra rd rs1 rs2 => encodeR .op 0b0100000 rs2 rs1 0b101 rd
  | .or rd rs1 rs2 => encodeR .op 0b0000000 rs2 rs1 0b110 rd
  | .and rd rs1 rs2 => encodeR .op 0b0000000 rs2 rs1 0b111 rd
  | .fence rd funct3 rs1 => encodeR .miscMem 0 0 rs1 funct3 rd
  | .ecall rd rs1 => encodeSystem 0 rs1 0b000 rd
  | .sysNopF1 funct7 rd rs1 => encodeSystem funct7 rs1 0b001 rd
  | .sysNopF2 funct7 rd rs1 => encodeSystem funct7 rs1 0b010 rd
  | .sysNopF3 funct7 rd rs1 => encodeSystem funct7 rs1 0b011 rd
  | .sysNopF4 funct7 rd rs1 => encodeSystem funct7 rs1 0b100 rd
  | .sysNopF5 funct7 rd rs1 => encodeSystem funct7 rs1 0b101 rd
  | .sysNopF6 funct7 rd rs1 => encodeSystem funct7 rs1 0b110 rd
  | .sysNopF7 funct7 rd rs1 => encodeSystem funct7 rs1 0b111 rd
  | .sysNopB0 funct7 rd rs1 => encodeSystem funct7 rs1 0b000 rd
  | .sysNopB1 funct7 rd rs1 => encodeSystem funct7 rs1 0b000 rd
  | .sysNopB2 funct7 rd rs1 => encodeSystem funct7 rs1 0b000 rd
  | .sysNopB3 funct7 rd rs1 => encodeSystem funct7 rs1 0b000 rd
  | .sysNopB4 funct7 rd rs1 => encodeSystem funct7 rs1 0b000 rd
  | .sysNopB5 funct7 rd rs1 => encodeSystem funct7 rs1 0b000 rd
  | .sysNopB6 funct7 rd rs1 => encodeSystem funct7 rs1 0b000 rd

/-! ### The opcode table -/

/-- A row of spec/opcode_table.json: a word `w` is of the row when `w & mask = value`. -/
structure Row where
  mask : Word
  value : Word
  deriving DecidableEq, Repr

/-- The word is one of the row's. -/
def Row.admits (r : Row) (w : Word) : Bool := w &&& r.mask == r.value

/-- The row of an instruction, `mask` and `match` as the table gives them (R90). -/
def Instr.row : Instr → Row
  | .lui _ _ => ⟨0x0000007F, 0x00000037⟩
  | .auipc _ _ => ⟨0x0000007F, 0x00000017⟩
  | .jal _ _ => ⟨0x0000007F, 0x0000006F⟩
  | .jalr _ _ _ _ => ⟨0x0000007F, 0x00000067⟩
  | .beq _ _ _ => ⟨0x0000707F, 0x00000063⟩
  | .bne _ _ _ => ⟨0x0000707F, 0x00001063⟩
  | .blt _ _ _ => ⟨0x0000707F, 0x00004063⟩
  | .bge _ _ _ => ⟨0x0000707F, 0x00005063⟩
  | .bltu _ _ _ => ⟨0x0000707F, 0x00006063⟩
  | .bgeu _ _ _ => ⟨0x0000707F, 0x00007063⟩
  | .lb _ _ _ => ⟨0x0000707F, 0x00000003⟩
  | .lh _ _ _ => ⟨0x0000707F, 0x00001003⟩
  | .lw _ _ _ => ⟨0x0000707F, 0x00002003⟩
  | .lbu _ _ _ => ⟨0x0000707F, 0x00004003⟩
  | .lhu _ _ _ => ⟨0x0000707F, 0x00005003⟩
  | .sb _ _ _ => ⟨0x0000707F, 0x00000023⟩
  | .sh _ _ _ => ⟨0x0000707F, 0x00001023⟩
  | .sw _ _ _ => ⟨0x0000707F, 0x00002023⟩
  | .addi _ _ _ => ⟨0x0000707F, 0x00000013⟩
  | .slti _ _ _ => ⟨0x0000707F, 0x00002013⟩
  | .sltiu _ _ _ => ⟨0x0000707F, 0x00003013⟩
  | .xori _ _ _ => ⟨0x0000707F, 0x00004013⟩
  | .ori _ _ _ => ⟨0x0000707F, 0x00006013⟩
  | .andi _ _ _ => ⟨0x0000707F, 0x00007013⟩
  | .slli _ _ _ _ => ⟨0x0000707F, 0x00001013⟩
  | .srli _ _ _ => ⟨0xFE00707F, 0x00005013⟩
  | .srai _ _ _ => ⟨0xFE00707F, 0x40005013⟩
  | .add _ _ _ => ⟨0xFE00707F, 0x00000033⟩
  | .sub _ _ _ => ⟨0xFE00707F, 0x40000033⟩
  | .sll _ _ _ => ⟨0xFE00707F, 0x00001033⟩
  | .slt _ _ _ => ⟨0xFE00707F, 0x00002033⟩
  | .sltu _ _ _ => ⟨0xFE00707F, 0x00003033⟩
  | .xor _ _ _ => ⟨0xFE00707F, 0x00004033⟩
  | .srl _ _ _ => ⟨0xFE00707F, 0x00005033⟩
  | .sra _ _ _ => ⟨0xFE00707F, 0x40005033⟩
  | .or _ _ _ => ⟨0xFE00707F, 0x00006033⟩
  | .and _ _ _ => ⟨0xFE00707F, 0x00007033⟩
  | .fence _ _ _ => ⟨0x0000007F, 0x0000000F⟩
  | .ecall _ _ => ⟨0xFE00707F, 0x00000073⟩
  | .sysNopF1 _ _ _ => ⟨0x0000707F, 0x00001073⟩
  | .sysNopF2 _ _ _ => ⟨0x0000707F, 0x00002073⟩
  | .sysNopF3 _ _ _ => ⟨0x0000707F, 0x00003073⟩
  | .sysNopF4 _ _ _ => ⟨0x0000707F, 0x00004073⟩
  | .sysNopF5 _ _ _ => ⟨0x0000707F, 0x00005073⟩
  | .sysNopF6 _ _ _ => ⟨0x0000707F, 0x00006073⟩
  | .sysNopF7 _ _ _ => ⟨0x0000707F, 0x00007073⟩
  | .sysNopB0 _ _ _ => ⟨0x0200707F, 0x02000073⟩
  | .sysNopB1 _ _ _ => ⟨0x0600707F, 0x04000073⟩
  | .sysNopB2 _ _ _ => ⟨0x0E00707F, 0x08000073⟩
  | .sysNopB3 _ _ _ => ⟨0x1E00707F, 0x10000073⟩
  | .sysNopB4 _ _ _ => ⟨0x3E00707F, 0x20000073⟩
  | .sysNopB5 _ _ _ => ⟨0x7E00707F, 0x40000073⟩
  | .sysNopB6 _ _ _ => ⟨0xFE00707F, 0x80000073⟩

/-- One instruction of each constructor, in the table's order, so that `opcodeTable` lists each row once. -/
def Instr.samples : List Instr :=
  List.flatten [[.lui 0 0, .auipc 0 0, .jal 0 0, .jalr 0 0 0 0],
    [.beq 0 0 0, .bne 0 0 0, .blt 0 0 0, .bge 0 0 0, .bltu 0 0 0, .bgeu 0 0 0],
    [.lb 0 0 0, .lh 0 0 0, .lw 0 0 0, .lbu 0 0 0, .lhu 0 0 0, .sb 0 0 0, .sh 0 0 0, .sw 0 0 0],
    [.addi 0 0 0, .slti 0 0 0, .sltiu 0 0 0, .xori 0 0 0, .ori 0 0 0, .andi 0 0 0],
    [.slli 0 0 0 0, .srli 0 0 0, .srai 0 0 0],
    [.add 0 0 0, .sub 0 0 0, .sll 0 0 0, .slt 0 0 0, .sltu 0 0 0],
    [.xor 0 0 0, .srl 0 0 0, .sra 0 0 0, .or 0 0 0, .and 0 0 0, .fence 0 0 0, .ecall 0 0],
    [.sysNopF1 0 0 0, .sysNopF2 0 0 0, .sysNopF3 0 0 0, .sysNopF4 0 0 0, .sysNopF5 0 0 0, .sysNopF6 0 0 0,
      .sysNopF7 0 0 0],
    [.sysNopB0 1 0 0, .sysNopB1 2 0 0, .sysNopB2 4 0 0, .sysNopB3 8 0 0, .sysNopB4 16 0 0, .sysNopB5 32 0 0,
      .sysNopB6 64 0 0]]

/-- The 53 rows of the opcode table (R90). -/
def opcodeTable : List Row := Instr.samples.map Instr.row

end Sys2Proof
end

