-- ==== Sys2Proof/Config.lean ====
section
/-! DEFINITION. The four open parameters of the hardware (spec/00_scope.md R9, decisions D4 and D5), and
the values `State.reset` takes for them, which are DESIGN CHOICES of this model (notes/assumptions/1.md to 4.md). -/

namespace Sys2Proof

/-- What the loader supplies before a run (R9, R252). -/
structure Params where
  /-- `MEM_SIZE`: the number of bytes in the memory array. -/
  memSize : Nat
  /-- `ENTRY_PC`: `pc` after reset, unconstrained. -/
  entryPc : Word
  /-- `INIT_SP`: `x[2]` after reset, unconstrained. -/
  initSp : Word
  /-- `MEM_IMAGE`, as the bytes the loader copied; of two entries for one address the first counts,
  and every address without an entry is zero-filled (R32, R252). -/
  image : List Host.Cell
  deriving DecidableEq, Repr

/-- R9's constraint on `MEM_SIZE`: a multiple of 4 with `4 <= MEM_SIZE <= 2^32`. -/
def memSizeLegal (n : Nat) : Bool := n % 4 == 0 && decide (4 ≤ n) && decide (n ≤ 2 ^ 32)

/-- R9 constrains nothing but `MEM_SIZE`. -/
def Params.valid (p : Params) : Bool := memSizeLegal p.memSize

namespace Config

/-- DESIGN CHOICE (notes/assumptions/1.md): `MEM_SIZE` of `State.reset` is the largest R9 admits, so
that the whole 32-bit address space is there. `State` carries the size, so statements range over all sizes. -/
def memSize : Nat := 2 ^ 32

/-- DESIGN CHOICE (notes/assumptions/2.md): `ENTRY_PC` of `State.reset`. -/
def entryPc : Word := 0

/-- DESIGN CHOICE (notes/assumptions/3.md): `INIT_SP` of `State.reset`. -/
def initSp : Word := 0

/-- The parameters of `State.reset`; its image copies no byte (notes/assumptions/4.md). -/
def params : Params := { memSize := memSize, entryPc := entryPc, initSp := initSp, image := [] }

end Config

end Sys2Proof
end

