-- ==== Sys2Proof/Machine/State.lean ====
section
/-! DEFINITION. The machine's state as plain data (spec/10_state.md R20 to R33), why a step can stop
(spec/60_exceptions.md R265, spec/49_step.md R246), and the state right after reset (R32, R300). -/

namespace Sys2Proof.Machine

/-- The memory array (R30, R40): its capacity `MEM_SIZE`, which no instruction changes, and its bytes in
canonical form (`Memory.wf`): addresses strictly rising, no entry that holds what an unlisted address reads as. -/
structure Memory where
  size : Nat
  cells : List Host.Cell
  deriving DecidableEq, Repr

/-- The whole architectural state (R20 to R31): registers, `pc` and memory, and the model's record of a halt. -/
structure State where
  /-- `x[1]` to `x[31]`; `x[0]` is the constant 0 and is not stored (R21). -/
  regs : Vector Word 31
  /-- The address of the instruction being executed (R24). -/
  pc : Word
  /-- The one memory array, shared by instructions and data (R30). -/
  mem : Memory
  /-- Bookkeeping that R33 allows (notes/assumptions/5.md): `some v` once ECALL has ended the run with
  `Halt{result_value = v}` (R236), `none` while the run goes on. No instruction reads it. -/
  halted : Option Word
  deriving DecidableEq, Repr

/-- The fault kinds: the closed four-element type of R271, with no code and no payload (R265). -/
inductive FaultKind where
  /-- Raised by decode: `word[6:0]` is none of the 11 opcodes (R78, R266). Safe: the spec's own fault. -/
  | unsupportedOpcode
  /-- Raised by execution: no instruction for this `funct3`/`funct7` (R92, R267). Safe: the spec's own fault. -/
  | unsupportedFunct
  /-- Raised by LH, LHU, LW, SH, SW and by the fetch (R49, R247, R268). Safe: the spec's own fault. -/
  | addressMisaligned
  /-- Raised by a load or store beyond `MEM_SIZE` (R47, R269). Safe: the spec's own fault. -/
  | addressOutOfRange
  deriving DecidableEq, Repr

/-- Why a step ends without a next state: a fault of R265, or the driver's stop, which is none (R246). The state is as it
was before the step (R270). DESIGN CHOICE: both are the host's `fault` outcome (notes/assumptions/8.md). -/
inductive Fault where
  /-- `Fault(kind)`: raised by the fetch, decode or execution, as the kind says. Safe: the spec's own outcome. -/
  | raised (kind : FaultKind)
  /-- The driver's stop `PcOutOfRange`, raised by the fetch only; not one of the four faults and not a success (R246,
  R247). Safe: the spec's own outcome. -/
  | pcOutOfRange
  deriving DecidableEq, Repr

/-- Why the model gives no meaning. No instruction of this model is refused. -/
inductive Refusal where
  /-- Raised by an arm of `exec` whose instruction has no meaning yet (none is left). Safe: the model stops. -/
  | notModelled (mnemonic : String)
  deriving DecidableEq, Repr

/-- The answer of a step or of an instruction's meaning. -/
abbrev Result := Host.Outcome State Fault Refusal

/-- The state right after reset (R32, R300) for the parameters `Config.params`: `x[2]` is `INIT_SP`, every
other register 0, `pc` is `ENTRY_PC`, every byte of memory 0. For other parameters see `State.resetWith`. -/
def State.reset : State :=
  { regs := (Vector.replicate 31 0).set 1 Config.initSp
    pc := Config.entryPc
    mem := { size := Config.memSize, cells := [] }
    halted := none }

end Sys2Proof.Machine
end

