-- ==== Sys2Proof/Machine/Ops.lean ====
section
/-! DEFINITION. The named operations over registers, `pc` and memory (spec/00_scope.md R13, spec/20_memory.md R40 to
R58), the ends of a step (`raise`, `halt`), the fetch (spec/49_step.md R247) and reset with parameters (R300).

This hardware takes no exception: a fault saves nothing and transfers no control (spec/60_exceptions.md R274), and
nothing returns from one (R275). What stands here in place of exception entry is `raise`, which ends the step with the
fault and leaves the state as it was (R270), and `halt`, the one policy for ECALL (R236, R239). -/

namespace Sys2Proof.Machine

/-! ### Registers and `pc` -/

/-- `x[i]` (R13, R21): `x[0]` reads as 0. -/
def State.reg (s : State) (i : RegIdx) : Word :=
  if i = 0 then 0 else s.regs[i.toNat - 1]'(by have := i.isLt; omega)

/-- `x[i] <- v` (R13, R21): a write of `x[0]` changes nothing. -/
def State.setReg (s : State) (i : RegIdx) (v : Word) : State :=
  if i = 0 then s else { s with regs := s.regs.set (i.toNat - 1) v (by have := i.isLt; omega) }

/-- `pc <- t` (R13). -/
def State.setPc (s : State) (t : Word) : State := { s with pc := t }

/-- Replaces the memory array. -/
def State.setMem (s : State) (m : Memory) : State := { s with mem := m }

/-- `pc + 4`, modulo `2^32` (R25, R26). -/
def State.nextPc (s : State) : Word := s.pc + 4

/-! ### The memory array -/

/-- What an address that `cells` does not list reads as: R32, "every byte the loader did not copy a program byte to is 0". -/
def Memory.unlisted : Byte := 0

/-- The byte a list of cells gives an address: its first entry, else `unlisted`. -/
def lookupCell : List Host.Cell → Nat → Byte
  | [], _ => Memory.unlisted
  | (k, b) :: cs, a => if a = k then b else lookupCell cs a

/-- The list without any entry for the address. -/
def eraseCell (a : Nat) (cs : List Host.Cell) : List Host.Cell := cs.filter fun c => c.1 != a

/-- The list with `b` at the address, put before the first entry for a higher one. -/
def placeCell (a : Nat) (b : Byte) : List Host.Cell → List Host.Cell
  | [] => [(a, b)]
  | (k, c) :: cs =>
    if a < k then (a, b) :: (k, c) :: cs
    else if a = k then (a, b) :: cs
    else (k, c) :: placeCell a b cs

/-- Gives the address the byte `b`: an entry that would hold what an unlisted address reads as is removed, so that a
list in canonical form stays in it. -/
def insertCell (a : Nat) (b : Byte) (cs : List Host.Cell) : List Host.Cell :=
  if b = Memory.unlisted then eraseCell a cs else placeCell a b cs

/-- `mem[a]` (R40). -/
def Memory.byte (m : Memory) (a : Nat) : Byte := lookupCell m.cells a

/-- `mem[a] <- b`; an address from `MEM_SIZE` on names nothing (R40), so nothing is written there. -/
def Memory.setByte (m : Memory) (a : Nat) (b : Byte) : Memory :=
  if a < m.size then { m with cells := insertCell a b m.cells } else m

/-- The cells are in canonical form for an array of `size` bytes, from address `lo` on: addresses strictly rising and
below `size`, no entry that holds what an unlisted address reads as. -/
def cellsCanonical (size : Nat) : Nat → List Host.Cell → Bool
  | _, [] => true
  | lo, (k, b) :: cs => decide (lo ≤ k) && decide (k < size) && b != Memory.unlisted && cellsCanonical size (k + 1) cs

/-- The canonical form of a memory, which every memory operation keeps. -/
def Memory.wf (m : Memory) : Bool := cellsCanonical m.size 0 m.cells

/-- The widths an access can have (R13: `n` in {1, 2, 4}). -/
inductive Width where
  | byte | half | word
  deriving DecidableEq, Repr

/-- The number of bytes of a width. -/
def Width.bytes : Width → Nat
  | .byte => 1
  | .half => 2
  | .word => 4

/-- The little-endian value of the `n` bytes at `a`: the loop of `MemRead` (R41, R45). -/
def Memory.readLE (m : Memory) (a : Nat) : Nat → Word
  | 0 => 0
  | n + 1 => m.readLE a n ||| (m.byte (a + n)).setWidth 32 <<< (8 * n)

/-- Stores the low `n` bytes of `v` at `a`, the least significant first: the loop of `MemWrite` (R41, R46). -/
def Memory.writeLE (m : Memory) (a : Nat) (v : Word) : Nat → Memory
  | 0 => m
  | n + 1 => (m.writeLE a v n).setByte (a + n) (v.extractLsb' (8 * n) 8)

/-- The `n` bytes at `a` lie below `MEM_SIZE`, in unbounded integers (R47). -/
def Memory.inRange (m : Memory) (a : Word) (n : Width) : Bool := decide (a.toNat + n.bytes ≤ m.size)

/-- `MemRead(a, n)` (R45). -/
def Memory.read (m : Memory) (a : Word) (n : Width) : Except FaultKind Word :=
  if m.inRange a n then .ok (m.readLE a.toNat n.bytes) else .error .addressOutOfRange

/-- `MemWrite(a, n, v)` (R46): the range check comes before the first byte is written. -/
def Memory.write (m : Memory) (a : Word) (n : Width) (v : Word) : Except FaultKind Memory :=
  if m.inRange a n then .ok (m.writeLE a.toNat v n.bytes) else .error .addressOutOfRange

/-- The address is aligned for the width: halfwords by 2, words by 4, bytes anywhere (R44). -/
def aligned (n : Width) (a : Word) : Bool :=
  match n with
  | .byte => true
  | .half => a.extractLsb' 0 1 == 0
  | .word => a.extractLsb' 0 2 == 0

/-! ### The ends of a step -/

/-- `raise F` (R13, R270): the step ends with the fault and no state is changed. -/
def raise (kind : FaultKind) : Result := .fault (.raised kind)

/-- `halt(v)` with `v = x[10]`, the halt policy of ECALL (R236, R239): registers, `pc` and memory stay as they are and
the model records that the run has ended with the result value (R33, notes/assumptions/5.md). -/
def halt (s : State) : Result := .next { s with halted := some (s.reg 10) }

/-- The run is over: no further step is taken (R249). -/
def State.runEnded (s : State) : Bool := s.halted.isSome

/-- `Continue` with `pc + 4` and nothing else written (R25). -/
def continueNext (s : State) : Result := .next (s.setPc s.nextPc)

/-- `Continue` with `x[rd] <- v` and `pc + 4` (R25). -/
def writeRd (rd : RegIdx) (v : Word) (s : State) : Result := .next ((s.setReg rd v).setPc s.nextPc)

/-- `Continue` with the link `x[rd] <- pc + 4` and `pc <- t`, the target not checked (R130 to R132). -/
def linkAndJump (rd : RegIdx) (t : Word) (s : State) : Result := .next ((s.setReg rd s.nextPc).setPc t)

/-! ### Fetch -/

/-- `fetch()` (R247): range before alignment, then the little-endian word at `pc` (R42), which cannot raise after the
first test. -/
def fetch (s : State) : Except Fault Word :=
  if s.mem.inRange s.pc .word then
    if aligned .word s.pc then (s.mem.read s.pc .word).mapError .raised else .error (.raised .addressMisaligned)
  else .error .pcOutOfRange

/-! ### Reset with parameters -/

/-- The loader's memory (R32, R252): `size` zero bytes, then the image's bytes; of two entries for one address the
first counts. -/
def Memory.ofImage (size : Nat) (image : List Host.Cell) : Memory :=
  image.foldr (fun c m => m.setByte c.1 c.2) { size := size, cells := [] }

/-- The state right after reset for any parameters (R32, R300). -/
def State.resetWith (p : Params) : State :=
  { regs := (Vector.replicate 31 0).set 1 p.initSp
    pc := p.entryPc
    mem := Memory.ofImage p.memSize p.image
    halted := none }

end Sys2Proof.Machine
end

