-- ==== Sys2Proof/Machine/Operands.lean ====
section
/-! DEFINITION. Every operand form of the instruction set (spec/00_scope.md R12, spec/30_encoding.md R88, R89):
sign-extended immediates, shift amounts, and the one addressing mode, base plus 12-bit offset (R160, R180). A register
operand is `State.reg`; LUI and AUIPC use `imm` as it is (R80). -/

namespace Sys2Proof.Machine

/-- `sext_N(v)` (R12): when bit `N-1` is set, OR with the ones above it. -/
def sext (n : Nat) (v : Word) : Word :=
  if v.getLsbD (n - 1) then v ||| (0xFFFFFFFF#32 <<< n) else v

/-- The 12-bit signed immediate of JALR, LOAD, STORE and OP-IMM (R88). -/
def imm12 (imm : Word) : Word := sext 12 imm

/-- The 13-bit signed branch offset (R88). DEDUCED: the width is conflict C2 (notes/assumptions/11.md). -/
def branchOffset (imm : Word) : Word := sext 13 imm

/-- The 21-bit signed offset of JAL (R88). DEDUCED: the width is conflict C1 (notes/assumptions/11.md). -/
def jalOffset (imm : Word) : Word := sext 21 imm

/-- The effective address of a load or store, and JALR's sum: `x[rs1] + sext_12(imm)`, modulo `2^32` (R131, R160, R180). -/
def effAddr (s : State) (rs1 : RegIdx) (imm : Word) : Word := s.reg rs1 + imm12 imm

/-- The shift amount of SLL, SRL, SRA: `x[rs2][4:0]` (R89). -/
def shiftAmount (v : Word) : Nat := (v.extractLsb' 0 5).toNat

/-- Clears bit 0, as JALR does to its target (R131). -/
def clearBit0 (v : Word) : Word := v &&& 0xFFFFFFFE

end Sys2Proof.Machine
end

