-- ==== Sys2Proof/Machine/Flags.lean ====
section
/-! DEFINITION. There are no flags and no condition codes (spec/10_state.md R27): a comparison gives 0 or 1 in a
general register or is used at once by a branch. The comparisons (spec/00_scope.md R11, spec/46_op.md R222) are here. -/

namespace Sys2Proof.Machine

/-- `signed(a) < signed(b)` (R11). -/
def ltSigned (a b : Word) : Bool := a.slt b

/-- `unsigned(a) < unsigned(b)` (R11). -/
def ltUnsigned (a b : Word) : Bool := a.ult b

/-- A comparison's result as the 32-bit value 0 or 1 (R222). -/
def boolWord (c : Bool) : Word := if c then 1 else 0

end Sys2Proof.Machine
end

