-- ==== Sys2Proof/Machine/Branch.lean ====
section
/-! DEFINITION. The six conditional branches (spec/42_branch.md): the template R140 and each condition R141 to R146. -/

namespace Sys2Proof.Machine

/-- R140: when taken `pc + sext_13(imm)`, else `pc + 4`; the target is not checked (R148). -/
def branchIf (taken : Bool) (imm : Word) (s : State) : Result :=
  if taken then .next (s.setPc (s.pc + branchOffset imm)) else continueNext s

/-- BEQ (R141). -/
def execBeq (rs1 rs2 : RegIdx) (imm : Word) (s : State) : Result :=
  branchIf (s.reg rs1 == s.reg rs2) imm s

/-- BNE (R142). -/
def execBne (rs1 rs2 : RegIdx) (imm : Word) (s : State) : Result :=
  branchIf (s.reg rs1 != s.reg rs2) imm s

/-- BLT (R143). -/
def execBlt (rs1 rs2 : RegIdx) (imm : Word) (s : State) : Result :=
  branchIf (ltSigned (s.reg rs1) (s.reg rs2)) imm s

/-- BGE (R144). -/
def execBge (rs1 rs2 : RegIdx) (imm : Word) (s : State) : Result :=
  branchIf (!ltSigned (s.reg rs1) (s.reg rs2)) imm s

/-- BLTU (R145). -/
def execBltu (rs1 rs2 : RegIdx) (imm : Word) (s : State) : Result :=
  branchIf (ltUnsigned (s.reg rs1) (s.reg rs2)) imm s

/-- BGEU (R146). -/
def execBgeu (rs1 rs2 : RegIdx) (imm : Word) (s : State) : Result :=
  branchIf (!ltUnsigned (s.reg rs1) (s.reg rs2)) imm s

end Sys2Proof.Machine
end

