-- ==== Sys2Proof/Machine/Jump.lean ====
section
/-! DEFINITION. JAL and JALR (spec/41_jal_jalr.md). -/

namespace Sys2Proof.Machine

/-- JAL: link, then `pc + sext_21(imm)` (R130). -/
def execJal (rd : RegIdx) (imm : Word) (s : State) : Result := linkAndJump rd (s.pc + jalOffset imm) s

/-- JALR: the target comes from the old `x[rs1]`, with bit 0 cleared; `funct3` is not examined (R131, R14). -/
def execJalr (rd : RegIdx) (_funct3 : BitVec 3) (rs1 : RegIdx) (imm : Word) (s : State) : Result :=
  linkAndJump rd (clearBit0 (effAddr s rs1 imm)) s

end Sys2Proof.Machine
end

