-- ==== Sys2Proof/Machine/Load.lean ====
section
/-! DEFINITION. The five loads (spec/43_load.md): the template R160 and each width and extension R161 to R165. -/

namespace Sys2Proof.Machine

/-- R160: alignment, then range (R48), then `x[rd] <- ext(v)`; with `rd = 0` the access and its checks still happen. -/
def loadOp (n : Width) (ext : Word → Word) (rd rs1 : RegIdx) (imm : Word) (s : State) : Result :=
  if aligned n (effAddr s rs1 imm) then
    match s.mem.read (effAddr s rs1 imm) n with
    | .error f => raise f
    | .ok v => writeRd rd (ext v) s
  else raise .addressMisaligned

/-- LB: sign-extended from bit 7 (R161). -/
def execLb (rd rs1 : RegIdx) (imm : Word) (s : State) : Result := loadOp .byte (sext 8) rd rs1 imm s

/-- LH: sign-extended from bit 15 (R162). -/
def execLh (rd rs1 : RegIdx) (imm : Word) (s : State) : Result := loadOp .half (sext 16) rd rs1 imm s

/-- LW (R163). -/
def execLw (rd rs1 : RegIdx) (imm : Word) (s : State) : Result := loadOp .word id rd rs1 imm s

/-- LBU: bits 31:8 are zero (R164). -/
def execLbu (rd rs1 : RegIdx) (imm : Word) (s : State) : Result := loadOp .byte id rd rs1 imm s

/-- LHU: bits 31:16 are zero (R165). -/
def execLhu (rd rs1 : RegIdx) (imm : Word) (s : State) : Result := loadOp .half id rd rs1 imm s

end Sys2Proof.Machine
end

