-- ==== Sys2Proof/Machine/MiscMem.lean ====
section
/-! DEFINITION. MISC-MEM: FENCE, which is every word of the kind (spec/47_misc_mem.md R230). -/

namespace Sys2Proof.Machine

/-- FENCE: everything is already ordered (R55, R56), so only `pc` advances; no field is read (R230). -/
def execFence (_rd : RegIdx) (_funct3 : BitVec 3) (_rs1 : RegIdx) (s : State) : Result := continueNext s

end Sys2Proof.Machine
end

