-- ==== Sys2Proof/Machine/Op.lean ====
section
/-! DEFINITION. The ten register-register ALU instructions (spec/46_op.md, template R210, laws R222). -/

namespace Sys2Proof.Machine

/-- R210: both sources are read before `rd` is written. -/
def opRR (f : Word → Word → Word) (rd rs1 rs2 : RegIdx) (s : State) : Result :=
  writeRd rd (f (s.reg rs1) (s.reg rs2)) s

/-- ADD (R211). -/
def execAdd (rd rs1 rs2 : RegIdx) (s : State) : Result := opRR (fun a b => a + b) rd rs1 rs2 s

/-- SUB (R212). -/
def execSub (rd rs1 rs2 : RegIdx) (s : State) : Result := opRR (fun a b => a - b) rd rs1 rs2 s

/-- SLL (R213). -/
def execSll (rd rs1 rs2 : RegIdx) (s : State) : Result := opRR (fun a b => a <<< shiftAmount b) rd rs1 rs2 s

/-- SLT (R214). -/
def execSlt (rd rs1 rs2 : RegIdx) (s : State) : Result := opRR (fun a b => boolWord (ltSigned a b)) rd rs1 rs2 s

/-- SLTU (R215). -/
def execSltu (rd rs1 rs2 : RegIdx) (s : State) : Result := opRR (fun a b => boolWord (ltUnsigned a b)) rd rs1 rs2 s

/-- XOR (R216). -/
def execXor (rd rs1 rs2 : RegIdx) (s : State) : Result := opRR (fun a b => a ^^^ b) rd rs1 rs2 s

/-- SRL (R217). -/
def execSrl (rd rs1 rs2 : RegIdx) (s : State) : Result := opRR (fun a b => a >>> shiftAmount b) rd rs1 rs2 s

/-- SRA (R218). -/
def execSra (rd rs1 rs2 : RegIdx) (s : State) : Result := opRR (fun a b => a.sshiftRight (shiftAmount b)) rd rs1 rs2 s

/-- OR (R219). -/
def execOr (rd rs1 rs2 : RegIdx) (s : State) : Result := opRR (fun a b => a ||| b) rd rs1 rs2 s

/-- AND (R220). -/
def execAnd (rd rs1 rs2 : RegIdx) (s : State) : Result := opRR (fun a b => a &&& b) rd rs1 rs2 s

end Sys2Proof.Machine
end

