-- ==== Sys2Proof/Machine/OpImm.lean ====
section
/-! DEFINITION. The nine register-immediate ALU instructions (spec/45_op_imm.md, template R190). -/

namespace Sys2Proof.Machine

/-- ADDI (R191). -/
def execAddi (rd rs1 : RegIdx) (imm : Word) (s : State) : Result := writeRd rd (s.reg rs1 + imm12 imm) s

/-- SLTI (R192). -/
def execSlti (rd rs1 : RegIdx) (imm : Word) (s : State) : Result :=
  writeRd rd (boolWord (ltSigned (s.reg rs1) (imm12 imm))) s

/-- SLTIU: the immediate is sign-extended first and then read as unsigned (R193). -/
def execSltiu (rd rs1 : RegIdx) (imm : Word) (s : State) : Result :=
  writeRd rd (boolWord (ltUnsigned (s.reg rs1) (imm12 imm))) s

/-- XORI (R194). -/
def execXori (rd rs1 : RegIdx) (imm : Word) (s : State) : Result := writeRd rd (s.reg rs1 ^^^ imm12 imm) s

/-- ORI (R195). -/
def execOri (rd rs1 : RegIdx) (imm : Word) (s : State) : Result := writeRd rd (s.reg rs1 ||| imm12 imm) s

/-- ANDI (R196). -/
def execAndi (rd rs1 : RegIdx) (imm : Word) (s : State) : Result := writeRd rd (s.reg rs1 &&& imm12 imm) s

/-- SLLI; `funct7` is not examined (R197). -/
def execSlli (rd rs1 : RegIdx) (_funct7 : BitVec 7) (shamt : BitVec 5) (s : State) : Result :=
  writeRd rd (s.reg rs1 <<< shamt.toNat) s

/-- SRLI: zeros enter at bit 31 (R198). -/
def execSrli (rd rs1 : RegIdx) (shamt : BitVec 5) (s : State) : Result :=
  writeRd rd (s.reg rs1 >>> shamt.toNat) s

/-- SRAI: copies of bit 31 enter (R199). -/
def execSrai (rd rs1 : RegIdx) (shamt : BitVec 5) (s : State) : Result :=
  writeRd rd ((s.reg rs1).sshiftRight shamt.toNat) s

end Sys2Proof.Machine
end

