-- ==== Sys2Proof/Machine/Store.lean ====
section
/-! DEFINITION. The three stores (spec/44_store.md): the template R180 and each width R181 to R183. -/

namespace Sys2Proof.Machine

/-- R180: alignment, then range (R48), then the low bytes of `x[rs2]` are stored. -/
def storeOp (n : Width) (rs1 rs2 : RegIdx) (imm : Word) (s : State) : Result :=
  if aligned n (effAddr s rs1 imm) then
    match s.mem.write (effAddr s rs1 imm) n (s.reg rs2) with
    | .error f => raise f
    | .ok m => continueNext (s.setMem m)
  else raise .addressMisaligned

/-- SB (R181). -/
def execSb (rs1 rs2 : RegIdx) (imm : Word) (s : State) : Result := storeOp .byte rs1 rs2 imm s

/-- SH (R182). -/
def execSh (rs1 rs2 : RegIdx) (imm : Word) (s : State) : Result := storeOp .half rs1 rs2 imm s

/-- SW (R183). -/
def execSw (rs1 rs2 : RegIdx) (imm : Word) (s : State) : Result := storeOp .word rs1 rs2 imm s

end Sys2Proof.Machine
end

