-- ==== Sys2Proof/Machine/System.lean ====
section
/-! DEFINITION. SYSTEM: ECALL halts, every other word of the kind is a no-op (spec/48_system.md R235 to R239). -/

namespace Sys2Proof.Machine

/-- ECALL, and EBREAK's word with it: the run ends with `Halt{x[10]}` (R236); `rd` and `rs1` are not read. -/
def execEcall (_rd _rs1 : RegIdx) (s : State) : Result := halt s

/-- R237: the SYSTEM no-op; `x[rd]` is not written, whatever `rd` is. -/
def sysNop (s : State) : Result := continueNext s

/-- SYSTEM no-op with `funct3 = 001` (R237). -/
def execSysNopF1 (_funct7 : BitVec 7) (_rd _rs1 : RegIdx) (s : State) : Result := sysNop s

/-- SYSTEM no-op with `funct3 = 010` (R237). -/
def execSysNopF2 (_funct7 : BitVec 7) (_rd _rs1 : RegIdx) (s : State) : Result := sysNop s

/-- SYSTEM no-op with `funct3 = 011` (R237). -/
def execSysNopF3 (_funct7 : BitVec 7) (_rd _rs1 : RegIdx) (s : State) : Result := sysNop s

/-- SYSTEM no-op with `funct3 = 100` (R237). -/
def execSysNopF4 (_funct7 : BitVec 7) (_rd _rs1 : RegIdx) (s : State) : Result := sysNop s

/-- SYSTEM no-op with `funct3 = 101` (R237). -/
def execSysNopF5 (_funct7 : BitVec 7) (_rd _rs1 : RegIdx) (s : State) : Result := sysNop s

/-- SYSTEM no-op with `funct3 = 110` (R237). -/
def execSysNopF6 (_funct7 : BitVec 7) (_rd _rs1 : RegIdx) (s : State) : Result := sysNop s

/-- SYSTEM no-op with `funct3 = 111` (R237). -/
def execSysNopF7 (_funct7 : BitVec 7) (_rd _rs1 : RegIdx) (s : State) : Result := sysNop s

/-- SYSTEM no-op with `funct3 = 000` and bit 0 the lowest set bit of `funct7` (R237). -/
def execSysNopB0 (_funct7 : BitVec 7) (_rd _rs1 : RegIdx) (s : State) : Result := sysNop s

/-- SYSTEM no-op with `funct3 = 000` and bit 1 the lowest set bit of `funct7` (R237). -/
def execSysNopB1 (_funct7 : BitVec 7) (_rd _rs1 : RegIdx) (s : State) : Result := sysNop s

/-- SYSTEM no-op with `funct3 = 000` and bit 2 the lowest set bit of `funct7` (R237). -/
def execSysNopB2 (_funct7 : BitVec 7) (_rd _rs1 : RegIdx) (s : State) : Result := sysNop s

/-- SYSTEM no-op with `funct3 = 000` and bit 3 the lowest set bit of `funct7` (R237). -/
def execSysNopB3 (_funct7 : BitVec 7) (_rd _rs1 : RegIdx) (s : State) : Result := sysNop s

/-- SYSTEM no-op with `funct3 = 000` and bit 4 the lowest set bit of `funct7` (R237). -/
def execSysNopB4 (_funct7 : BitVec 7) (_rd _rs1 : RegIdx) (s : State) : Result := sysNop s

/-- SYSTEM no-op with `funct3 = 000` and bit 5 the lowest set bit of `funct7` (R237). -/
def execSysNopB5 (_funct7 : BitVec 7) (_rd _rs1 : RegIdx) (s : State) : Result := sysNop s

/-- SYSTEM no-op with `funct3 = 000` and bit 6 the lowest set bit of `funct7` (R237). -/
def execSysNopB6 (_funct7 : BitVec 7) (_rd _rs1 : RegIdx) (s : State) : Result := sysNop s

end Sys2Proof.Machine
end

