-- ==== Sys2Proof/Machine/UpperImm.lean ====
section
/-! DEFINITION. LUI and AUIPC (spec/40_lui_auipc.md). -/

namespace Sys2Proof.Machine

/-- LUI: `x[rd] <- imm` (R120). -/
def execLui (rd : RegIdx) (imm : Word) (s : State) : Result := writeRd rd imm s

/-- AUIPC: `x[rd] <- pc + imm`, `pc` the address of this instruction (R121). -/
def execAuipc (rd : RegIdx) (imm : Word) (s : State) : Result := writeRd rd (s.pc + imm) s

end Sys2Proof.Machine
end

