-- ==== Sys2Proof/Machine/Dispatch.lean ====
section
/-! DEFINITION. The dispatch (spec/49_step.md R254): one arm for each constructor of `Instr`, one meaning for each arm. -/

namespace Sys2Proof.Machine

def exec (i : Instr) (s : State) : Host.Outcome State Fault Refusal :=
  match i with
  | .lui rd imm => Sys2Proof.Machine.execLui rd imm s
  | .auipc rd imm => Sys2Proof.Machine.execAuipc rd imm s
  | .jal rd imm => Sys2Proof.Machine.execJal rd imm s
  | .jalr rd funct3 rs1 imm => Sys2Proof.Machine.execJalr rd funct3 rs1 imm s
  | .beq rs1 rs2 imm => Sys2Proof.Machine.execBeq rs1 rs2 imm s
  | .bne rs1 rs2 imm => Sys2Proof.Machine.execBne rs1 rs2 imm s
  | .blt rs1 rs2 imm => Sys2Proof.Machine.execBlt rs1 rs2 imm s
  | .bge rs1 rs2 imm => Sys2Proof.Machine.execBge rs1 rs2 imm s
  | .bltu rs1 rs2 imm => Sys2Proof.Machine.execBltu rs1 rs2 imm s
  | .bgeu rs1 rs2 imm => Sys2Proof.Machine.execBgeu rs1 rs2 imm s
  | .lb rd rs1 imm => Sys2Proof.Machine.execLb rd rs1 imm s
  | .lh rd rs1 imm => Sys2Proof.Machine.execLh rd rs1 imm s
  | .lw rd rs1 imm => Sys2Proof.Machine.execLw rd rs1 imm s
  | .lbu rd rs1 imm => Sys2Proof.Machine.execLbu rd rs1 imm s
  | .lhu rd rs1 imm => Sys2Proof.Machine.execLhu rd rs1 imm s
  | .sb rs1 rs2 imm => Sys2Proof.Machine.execSb rs1 rs2 imm s
  | .sh rs1 rs2 imm => Sys2Proof.Machine.execSh rs1 rs2 imm s
  | .sw rs1 rs2 imm => Sys2Proof.Machine.execSw rs1 rs2 imm s
  | .addi rd rs1 imm => Sys2Proof.Machine.execAddi rd rs1 imm s
  | .slti rd rs1 imm => Sys2Proof.Machine.execSlti rd rs1 imm s
  | .sltiu rd rs1 imm => Sys2Proof.Machine.execSltiu rd rs1 imm s
  | .xori rd rs1 imm => Sys2Proof.Machine.execXori rd rs1 imm s
  | .ori rd rs1 imm => Sys2Proof.Machine.execOri rd rs1 imm s
  | .andi rd rs1 imm => Sys2Proof.Machine.execAndi rd rs1 imm s
  | .slli rd rs1 funct7 shamt => Sys2Proof.Machine.execSlli rd rs1 funct7 shamt s
  | .srli rd rs1 shamt => Sys2Proof.Machine.execSrli rd rs1 shamt s
  | .srai rd rs1 shamt => Sys2Proof.Machine.execSrai rd rs1 shamt s
  | .add rd rs1 rs2 => Sys2Proof.Machine.execAdd rd rs1 rs2 s
  | .sub rd rs1 rs2 => Sys2Proof.Machine.execSub rd rs1 rs2 s
  | .sll rd rs1 rs2 => Sys2Proof.Machine.execSll rd rs1 rs2 s
  | .slt rd rs1 rs2 => Sys2Proof.Machine.execSlt rd rs1 rs2 s
  | .sltu rd rs1 rs2 => Sys2Proof.Machine.execSltu rd rs1 rs2 s
  | .xor rd rs1 rs2 => Sys2Proof.Machine.execXor rd rs1 rs2 s
  | .srl rd rs1 rs2 => Sys2Proof.Machine.execSrl rd rs1 rs2 s
  | .sra rd rs1 rs2 => Sys2Proof.Machine.execSra rd rs1 rs2 s
  | .or rd rs1 rs2 => Sys2Proof.Machine.execOr rd rs1 rs2 s
  | .and rd rs1 rs2 => Sys2Proof.Machine.execAnd rd rs1 rs2 s
  | .fence rd funct3 rs1 => Sys2Proof.Machine.execFence rd funct3 rs1 s
  | .ecall rd rs1 => Sys2Proof.Machine.execEcall rd rs1 s
  | .sysNopF1 funct7 rd rs1 => Sys2Proof.Machine.execSysNopF1 funct7 rd rs1 s
  | .sysNopF2 funct7 rd rs1 => Sys2Proof.Machine.execSysNopF2 funct7 rd rs1 s
  | .sysNopF3 funct7 rd rs1 => Sys2Proof.Machine.execSysNopF3 funct7 rd rs1 s
  | .sysNopF4 funct7 rd rs1 => Sys2Proof.Machine.execSysNopF4 funct7 rd rs1 s
  | .sysNopF5 funct7 rd rs1 => Sys2Proof.Machine.execSysNopF5 funct7 rd rs1 s
  | .sysNopF6 funct7 rd rs1 => Sys2Proof.Machine.execSysNopF6 funct7 rd rs1 s
  | .sysNopF7 funct7 rd rs1 => Sys2Proof.Machine.execSysNopF7 funct7 rd rs1 s
  | .sysNopB0 funct7 rd rs1 => Sys2Proof.Machine.execSysNopB0 funct7 rd rs1 s
  | .sysNopB1 funct7 rd rs1 => Sys2Proof.Machine.execSysNopB1 funct7 rd rs1 s
  | .sysNopB2 funct7 rd rs1 => Sys2Proof.Machine.execSysNopB2 funct7 rd rs1 s
  | .sysNopB3 funct7 rd rs1 => Sys2Proof.Machine.execSysNopB3 funct7 rd rs1 s
  | .sysNopB4 funct7 rd rs1 => Sys2Proof.Machine.execSysNopB4 funct7 rd rs1 s
  | .sysNopB5 funct7 rd rs1 => Sys2Proof.Machine.execSysNopB5 funct7 rd rs1 s
  | .sysNopB6 funct7 rd rs1 => Sys2Proof.Machine.execSysNopB6 funct7 rd rs1 s

end Sys2Proof.Machine
end

