-- ==== Sys2Proof/Machine/Step.lean ====
section
/-! DEFINITION. One step: fetch, decode, execute (spec/49_step.md R247, R248, R254), and where the host puts an
instruction so that the next step runs it. -/

namespace Sys2Proof.Machine

/-- `execute(op)` (R254): `UnsupportedFunct` when no instruction is selected, before any address is examined (R273). -/
def execute (o : Operand) (s : State) : Host.Outcome State Fault Refusal :=
  match o.select with
  | none => raise .unsupportedFunct
  | some i => exec i s

/-- `step()` (R248). Once the run has ended no further step is taken: the state is final (R249). -/
def step (s : State) : Host.Outcome State Fault Refusal :=
  if s.runEnded then .next s
  else
    match fetch s with
    | .error f => .fault f
    | .ok w =>
      match decodeOperand w with
      | none => raise .unsupportedOpcode
      | some o => execute o s

/-- `s` with the instruction whose `nbits` bits are `w` stored at `pc`, where the next step fetches, and with the run
going on (a step is taken only then). -/
def State.withFetchWord (s : State) (nbits w : Nat) : State :=
  { s with mem := s.mem.writeLE s.pc.toNat (tableWord nbits w) 4, halted := none }

end Sys2Proof.Machine
end

