-- ==== Sys2Proof/Safety.lean ====
section
/-! DEFINITION. The terms in which the claims are stated: the invariant of the machine, what a step may write, where an
instruction's operands, destination and accesses lie, and the opcode table's selection. -/

namespace Sys2Proof

open Sys2Proof.Machine

/-! ### The invariant -/

/-- What holds of every state a run reaches: memory in canonical form, `MEM_SIZE` legal (R9), and a recorded halt whose
result value is `x[10]` (R236). -/
def Machine.State.inv (s : State) : Bool :=
  s.mem.wf && memSizeLegal s.mem.size && (s.halted == none || s.halted == some (s.reg 10))

/-! ### What changed between two states -/

/-- Memory has the same size and every byte reads the same. -/
structure SameMemory (s t : State) : Prop where
  size : t.mem.size = s.mem.size
  bytes : ∀ a, t.mem.byte a = s.mem.byte a

/-- From `s` to `t` the register `rd` received `v` (nothing is written when `rd` is 0, R21), `pc` became `p`, and
nothing else changed. -/
structure WritesReg (s t : State) (rd : RegIdx) (v p : Word) : Prop where
  value : rd ≠ 0 → t.reg rd = v
  zero : t.reg 0 = 0
  others : ∀ r, r ≠ rd → t.reg r = s.reg r
  pc : t.pc = p
  memory : SameMemory s t
  halted : t.halted = s.halted

/-- From `s` to `t` only `pc` changed, to `p`. -/
structure WritesPc (s t : State) (p : Word) : Prop where
  regs : ∀ r, t.reg r = s.reg r
  pc : t.pc = p
  memory : SameMemory s t
  halted : t.halted = s.halted

/-- From `s` to `t` the `n` bytes at `a` received the low `n` bytes of `v`, the least significant first, `pc` became
`pc + 4`, and nothing else changed. -/
structure WritesMem (s t : State) (a : Word) (n : Nat) (v : Word) : Prop where
  stored : ∀ k, k < n → t.mem.byte (a.toNat + k) = v.extractLsb' (8 * k) 8
  others : ∀ b, b < a.toNat ∨ a.toNat + n ≤ b → t.mem.byte b = s.mem.byte b
  size : t.mem.size = s.mem.size
  regs : ∀ r, t.reg r = s.reg r
  pc : t.pc = s.pc + 4
  halted : t.halted = s.halted

/-! ### The operands of an instruction -/

/-- The word at `pc`, the least significant byte at the lowest address (R42). -/
def wordAtPc (s : State) : Word :=
  s.mem.byte (s.pc.toNat + 3) ++ s.mem.byte (s.pc.toNat + 2) ++ s.mem.byte (s.pc.toNat + 1) ++ s.mem.byte s.pc.toNat

/-- Every word with `word & mask = value` decodes to the instruction `f word` (a row of the opcode table, R90). -/
def Selects (mask value : Word) (f : Word → Instr) : Prop :=
  ∀ w : Word, w &&& mask = value → decode w = .ok (f w)

/-- SB, SH, SW. -/
def Instr.isStore : Instr → Bool
  | .sb _ _ _ | .sh _ _ _ | .sw _ _ _ => true
  | .lui _ _ | .auipc _ _ | .jal _ _ | .jalr _ _ _ _ => false
  | .beq _ _ _ | .bne _ _ _ | .blt _ _ _ | .bge _ _ _ | .bltu _ _ _ | .bgeu _ _ _ => false
  | .lb _ _ _ | .lh _ _ _ | .lw _ _ _ | .lbu _ _ _ | .lhu _ _ _ => false
  | .addi _ _ _ | .slti _ _ _ | .sltiu _ _ _ | .xori _ _ _ | .ori _ _ _ | .andi _ _ _ => false
  | .slli _ _ _ _ | .srli _ _ _ | .srai _ _ _ => false
  | .add _ _ _ | .sub _ _ _ | .sll _ _ _ | .slt _ _ _ | .sltu _ _ _ => false
  | .xor _ _ _ | .srl _ _ _ | .sra _ _ _ | .or _ _ _ | .and _ _ _ => false
  | .fence _ _ _ | .ecall _ _ => false
  | .sysNopF1 _ _ _ | .sysNopF2 _ _ _ | .sysNopF3 _ _ _ | .sysNopF4 _ _ _ => false
  | .sysNopF5 _ _ _ | .sysNopF6 _ _ _ | .sysNopF7 _ _ _ => false
  | .sysNopB0 _ _ _ | .sysNopB1 _ _ _ | .sysNopB2 _ _ _ | .sysNopB3 _ _ _ => false
  | .sysNopB4 _ _ _ | .sysNopB5 _ _ _ | .sysNopB6 _ _ _ => false

/-- The general register an instruction writes, by R23's table; `none` when it writes none. -/
def Instr.dest : Instr → Option RegIdx
  | .lui rd _ | .auipc rd _ | .jal rd _ | .jalr rd _ _ _ => some rd
  | .beq _ _ _ | .bne _ _ _ | .blt _ _ _ | .bge _ _ _ | .bltu _ _ _ | .bgeu _ _ _ => none
  | .lb rd _ _ | .lh rd _ _ | .lw rd _ _ | .lbu rd _ _ | .lhu rd _ _ => some rd
  | .sb _ _ _ | .sh _ _ _ | .sw _ _ _ => none
  | .addi rd _ _ | .slti rd _ _ | .sltiu rd _ _ | .xori rd _ _ | .ori rd _ _ | .andi rd _ _ => some rd
  | .slli rd _ _ _ | .srli rd _ _ | .srai rd _ _ => some rd
  | .add rd _ _ | .sub rd _ _ | .sll rd _ _ | .slt rd _ _ | .sltu rd _ _ => some rd
  | .xor rd _ _ | .srl rd _ _ | .sra rd _ _ | .or rd _ _ | .and rd _ _ => some rd
  | .fence _ _ _ | .ecall _ _ => none
  | .sysNopF1 _ _ _ | .sysNopF2 _ _ _ | .sysNopF3 _ _ _ | .sysNopF4 _ _ _ => none
  | .sysNopF5 _ _ _ | .sysNopF6 _ _ _ | .sysNopF7 _ _ _ => none
  | .sysNopB0 _ _ _ | .sysNopB1 _ _ _ | .sysNopB2 _ _ _ | .sysNopB3 _ _ _ => none
  | .sysNopB4 _ _ _ | .sysNopB5 _ _ _ | .sysNopB6 _ _ _ => none

/-- The general registers an instruction reads, by R23's table. -/
def Instr.sources : Instr → List RegIdx
  | .lui _ _ | .auipc _ _ | .jal _ _ => []
  | .jalr _ _ rs1 _ => [rs1]
  | .beq rs1 rs2 _ | .bne rs1 rs2 _ | .blt rs1 rs2 _ | .bge rs1 rs2 _ | .bltu rs1 rs2 _ | .bgeu rs1 rs2 _ => [rs1, rs2]
  | .lb _ rs1 _ | .lh _ rs1 _ | .lw _ rs1 _ | .lbu _ rs1 _ | .lhu _ rs1 _ => [rs1]
  | .sb rs1 rs2 _ | .sh rs1 rs2 _ | .sw rs1 rs2 _ => [rs1, rs2]
  | .addi _ rs1 _ | .slti _ rs1 _ | .sltiu _ rs1 _ | .xori _ rs1 _ | .ori _ rs1 _ | .andi _ rs1 _ => [rs1]
  | .slli _ rs1 _ _ | .srli _ rs1 _ | .srai _ rs1 _ => [rs1]
  | .add _ rs1 rs2 | .sub _ rs1 rs2 | .sll _ rs1 rs2 | .slt _ rs1 rs2 | .sltu _ rs1 rs2 => [rs1, rs2]
  | .xor _ rs1 rs2 | .srl _ rs1 rs2 | .sra _ rs1 rs2 | .or _ rs1 rs2 | .and _ rs1 rs2 => [rs1, rs2]
  | .fence _ _ _ => []
  | .ecall _ _ => [10]
  | .sysNopF1 _ _ _ | .sysNopF2 _ _ _ | .sysNopF3 _ _ _ | .sysNopF4 _ _ _ => []
  | .sysNopF5 _ _ _ | .sysNopF6 _ _ _ | .sysNopF7 _ _ _ => []
  | .sysNopB0 _ _ _ | .sysNopB1 _ _ _ | .sysNopB2 _ _ _ | .sysNopB3 _ _ _ => []
  | .sysNopB4 _ _ _ | .sysNopB5 _ _ _ | .sysNopB6 _ _ _ => []

/-- `x[rs1] + sext_12(imm)` for a well-formed 12-bit immediate, modulo `2^32` (R160, R180). -/
def baseOffset (s : State) (rs1 : RegIdx) (imm : Word) : Word := s.reg rs1 + (imm.extractLsb' 0 12).signExtend 32

/-- The data access of an instruction, its address and its number of bytes (R50); `none` when it makes none. -/
def Instr.access (s : State) : Instr → Option (Word × Nat)
  | .lb _ rs1 imm | .lbu _ rs1 imm | .sb rs1 _ imm => some (baseOffset s rs1 imm, 1)
  | .lh _ rs1 imm | .lhu _ rs1 imm | .sh rs1 _ imm => some (baseOffset s rs1 imm, 2)
  | .lw _ rs1 imm | .sw rs1 _ imm => some (baseOffset s rs1 imm, 4)
  | .lui _ _ | .auipc _ _ | .jal _ _ | .jalr _ _ _ _ => none
  | .beq _ _ _ | .bne _ _ _ | .blt _ _ _ | .bge _ _ _ | .bltu _ _ _ | .bgeu _ _ _ => none
  | .addi _ _ _ | .slti _ _ _ | .sltiu _ _ _ | .xori _ _ _ | .ori _ _ _ | .andi _ _ _ => none
  | .slli _ _ _ _ | .srli _ _ _ | .srai _ _ _ => none
  | .add _ _ _ | .sub _ _ _ | .sll _ _ _ | .slt _ _ _ | .sltu _ _ _ => none
  | .xor _ _ _ | .srl _ _ _ | .sra _ _ _ | .or _ _ _ | .and _ _ _ => none
  | .fence _ _ _ | .ecall _ _ => none
  | .sysNopF1 _ _ _ | .sysNopF2 _ _ _ | .sysNopF3 _ _ _ | .sysNopF4 _ _ _ => none
  | .sysNopF5 _ _ _ | .sysNopF6 _ _ _ | .sysNopF7 _ _ _ => none
  | .sysNopB0 _ _ _ | .sysNopB1 _ _ _ | .sysNopB2 _ _ _ | .sysNopB3 _ _ _ => none
  | .sysNopB4 _ _ _ | .sysNopB5 _ _ _ | .sysNopB6 _ _ _ => none

/-- The access is aligned and in range (R44, R47); true of an instruction that makes none. -/
def Instr.accessOk (s : State) (i : Instr) : Prop :=
  ∀ a n, i.access s = some (a, n) → a.toNat % n = 0 ∧ a.toNat + n ≤ s.mem.size

/-- The new `pc` of a branch whose condition is `taken` (R25). -/
def branchPc (s : State) (taken : Bool) (imm : Word) : Word :=
  if taken then s.pc + (imm.extractLsb' 0 13).signExtend 32 else s.pc + 4

/-- The `pc` an instruction leaves, by R25's table, for a well-formed instruction. -/
def Instr.newPc (s : State) : Instr → Word
  | .jal _ imm => s.pc + (imm.extractLsb' 0 21).signExtend 32
  | .jalr _ _ rs1 imm => baseOffset s rs1 imm &&& 0xFFFFFFFE
  | .beq rs1 rs2 imm => branchPc s (decide (s.reg rs1 = s.reg rs2)) imm
  | .bne rs1 rs2 imm => branchPc s (decide (s.reg rs1 ≠ s.reg rs2)) imm
  | .blt rs1 rs2 imm => branchPc s (decide ((s.reg rs1).toInt < (s.reg rs2).toInt)) imm
  | .bge rs1 rs2 imm => branchPc s (decide ((s.reg rs1).toInt ≥ (s.reg rs2).toInt)) imm
  | .bltu rs1 rs2 imm => branchPc s (decide ((s.reg rs1).toNat < (s.reg rs2).toNat)) imm
  | .bgeu rs1 rs2 imm => branchPc s (decide ((s.reg rs1).toNat ≥ (s.reg rs2).toNat)) imm
  | .ecall _ _ => s.pc
  | .lui _ _ | .auipc _ _ => s.pc + 4
  | .lb _ _ _ | .lh _ _ _ | .lw _ _ _ | .lbu _ _ _ | .lhu _ _ _ | .sb _ _ _ | .sh _ _ _ | .sw _ _ _ => s.pc + 4
  | .addi _ _ _ | .slti _ _ _ | .sltiu _ _ _ | .xori _ _ _ | .ori _ _ _ | .andi _ _ _ => s.pc + 4
  | .slli _ _ _ _ | .srli _ _ _ | .srai _ _ _ => s.pc + 4
  | .add _ _ _ | .sub _ _ _ | .sll _ _ _ | .slt _ _ _ | .sltu _ _ _ => s.pc + 4
  | .xor _ _ _ | .srl _ _ _ | .sra _ _ _ | .or _ _ _ | .and _ _ _ => s.pc + 4
  | .fence _ _ _ => s.pc + 4
  | .sysNopF1 _ _ _ | .sysNopF2 _ _ _ | .sysNopF3 _ _ _ | .sysNopF4 _ _ _ => s.pc + 4
  | .sysNopF5 _ _ _ | .sysNopF6 _ _ _ | .sysNopF7 _ _ _ => s.pc + 4
  | .sysNopB0 _ _ _ | .sysNopB1 _ _ _ | .sysNopB2 _ _ _ | .sysNopB3 _ _ _ => s.pc + 4
  | .sysNopB4 _ _ _ | .sysNopB5 _ _ _ | .sysNopB6 _ _ _ => s.pc + 4

/-- The bits of the word an instruction was decoded from that its Operand carries: MISC-MEM drops `word[31:20]` (R86),
SYSTEM drops `word[24:20]` (R87). -/
def Instr.carried : Instr → Word
  | .fence _ _ _ => 0x000FFFFF
  | .ecall _ _ => 0xFE0FFFFF
  | .sysNopF1 _ _ _ | .sysNopF2 _ _ _ | .sysNopF3 _ _ _ | .sysNopF4 _ _ _ => 0xFE0FFFFF
  | .sysNopF5 _ _ _ | .sysNopF6 _ _ _ | .sysNopF7 _ _ _ => 0xFE0FFFFF
  | .sysNopB0 _ _ _ | .sysNopB1 _ _ _ | .sysNopB2 _ _ _ | .sysNopB3 _ _ _ => 0xFE0FFFFF
  | .sysNopB4 _ _ _ | .sysNopB5 _ _ _ | .sysNopB6 _ _ _ => 0xFE0FFFFF
  | .lui _ _ | .auipc _ _ | .jal _ _ | .jalr _ _ _ _ => 0xFFFFFFFF
  | .beq _ _ _ | .bne _ _ _ | .blt _ _ _ | .bge _ _ _ | .bltu _ _ _ | .bgeu _ _ _ => 0xFFFFFFFF
  | .lb _ _ _ | .lh _ _ _ | .lw _ _ _ | .lbu _ _ _ | .lhu _ _ _ | .sb _ _ _ | .sh _ _ _ | .sw _ _ _ => 0xFFFFFFFF
  | .addi _ _ _ | .slti _ _ _ | .sltiu _ _ _ | .xori _ _ _ | .ori _ _ _ | .andi _ _ _ => 0xFFFFFFFF
  | .slli _ _ _ _ | .srli _ _ _ | .srai _ _ _ => 0xFFFFFFFF
  | .add _ _ _ | .sub _ _ _ | .sll _ _ _ | .slt _ _ _ | .sltu _ _ _ => 0xFFFFFFFF
  | .xor _ _ _ | .srl _ _ _ | .sra _ _ _ | .or _ _ _ | .and _ _ _ => 0xFFFFFFFF

end Sys2Proof
end

