-- ==== Sys2Proof/Certificates/Slice0/Obligations.lean ====
section
/-! DEFINITION. The statements for the provers. Immediates of well-formed instructions are written from their free bits:
a 12-bit field `off` as `off.setWidth 32`, a branch offset as `0#19 ++ off ++ 0#1`, a JAL offset as `0#11 ++ off ++ 0#1`,
an upper immediate as `hi ++ 0#12`; `DecodedInstructionsAreWellFormed` says that decoding gives no others. -/

open Sys2Proof Sys2Proof.Machine

/-! ### Reset -/

/-- R32, R300: the state after reset, for every parameter. -/
def Obligations.ResetHoldsTheLoadersValues : Prop :=
  ∀ p : Params,
    (State.resetWith p).reg 2 = p.initSp ∧
    (∀ r : RegIdx, r ≠ 2 → (State.resetWith p).reg r = 0) ∧
    (State.resetWith p).pc = p.entryPc ∧
    (State.resetWith p).mem.size = p.memSize ∧
    (∀ a, a < p.memSize → ∀ b, p.image.find? (fun c => c.1 == a) = some (a, b) →
      (State.resetWith p).mem.byte a = b) ∧
    (∀ a, (∀ c ∈ p.image, c.1 ≠ a) → (State.resetWith p).mem.byte a = 0)

/-- The model's choice (notes/assumptions/1.md to 4.md): the one state `State.reset` is the reset state for
`MEM_SIZE = 2^32`, `ENTRY_PC = 0`, `INIT_SP = 0` and an image that copies nothing. -/
def Obligations.ResetIsTheChosenParameters : Prop :=
  State.reset = State.resetWith { memSize := 2 ^ 32, entryPc := 0, initSp := 0, image := [] } ∧
    core.reset = State.reset

/-- The invariant holds after reset. -/
def Obligations.ResetMeetsTheInvariant : Prop := State.reset.inv = true

/-- The invariant holds after reset for all parameters that R9 admits. -/
def Obligations.ResetMeetsTheInvariantForAllParameters : Prop :=
  ∀ p : Params, p.valid = true → (State.resetWith p).inv = true

/-! ### The step -/

/-- R247, R42: the fetch tests the range, then the alignment, then reads the little-endian word. Rests on decision D17. -/
def Obligations.FetchTestsRangeThenAlignment : Prop :=
  ∀ s : State,
    (s.mem.size < s.pc.toNat + 4 → fetch s = .error .pcOutOfRange) ∧
    (s.pc.toNat + 4 ≤ s.mem.size → s.pc.toNat % 4 ≠ 0 → fetch s = .error (.raised .addressMisaligned)) ∧
    (s.pc.toNat + 4 ≤ s.mem.size → s.pc.toNat % 4 = 0 → fetch s = .ok (wordAtPc s))

/-- R248: when the word at `pc` decodes to `i`, the step is `exec i`; nothing is added around it on this hardware. -/
def Obligations.StepRunsTheDecodedInstruction : Prop :=
  ∀ (s : State) (i : Instr), s.halted = none → s.pc.toNat + 4 ≤ s.mem.size → s.pc.toNat % 4 = 0 →
    decode (wordAtPc s) = .ok i → step s = exec i s

/-- R273: the outcomes of a step in their order, and that the last of them is a next state. Rests on D16 and D17. -/
def Obligations.StepOutcomesComeInPriorityOrder : Prop :=
  ∀ s : State, s.halted = none →
    (s.mem.size < s.pc.toNat + 4 → step s = .fault .pcOutOfRange) ∧
    (s.pc.toNat + 4 ≤ s.mem.size → s.pc.toNat % 4 ≠ 0 → step s = .fault (.raised .addressMisaligned)) ∧
    (s.pc.toNat + 4 ≤ s.mem.size → s.pc.toNat % 4 = 0 →
      (decode (wordAtPc s) = .error .unsupportedOpcode → step s = .fault (.raised .unsupportedOpcode)) ∧
      (decode (wordAtPc s) = .error .unsupportedFunct → step s = .fault (.raised .unsupportedFunct)) ∧
      ∀ i, decode (wordAtPc s) = .ok i →
        (∀ a n, i.access s = some (a, n) → a.toNat % n ≠ 0 → step s = .fault (.raised .addressMisaligned)) ∧
        (∀ a n, i.access s = some (a, n) → a.toNat % n = 0 → s.mem.size < a.toNat + n →
          step s = .fault (.raised .addressOutOfRange)) ∧
        (i.accessOk s → ∃ t, step s = .next t))

/-- spec/93: the hardware is total; no instruction and no step of the model is refused. -/
def Obligations.NothingIsRefused : Prop :=
  (∀ (i : Instr) (s : State) (r : Refusal), exec i s ≠ .refused r) ∧
    ∀ (s : State) (r : Refusal), step s ≠ .refused r

/-- R268, R269: an instruction, once selected, faults only if it is a load or a store, and only for its address.
The spec's execution (R265, R267) raises `UnsupportedFunct` as well, when no instruction is selected: that part is
`execute`, before `exec`. The split of selection from `exec` is the model's choice (DESIGN CHOICE,
notes/assumptions/9.md). -/
def Obligations.SelectedInstructionsFaultOnlyAsLoadsOrStores : Prop :=
  ∀ (i : Instr) (s : State) (f : Fault), exec i s = .fault f →
    ∃ a n, i.access s = some (a, n) ∧ (f = .raised .addressMisaligned ∧ n ≠ 1 ∨ f = .raised .addressOutOfRange)

/-- Once a halt is recorded every further run of steps stays in the final state (R249; the record of the halt is the
model's choice, notes/assumptions/5.md). -/
def Obligations.HaltIsFinal : Prop :=
  ∀ (s : State) (v : Word) (k : Nat), s.halted = some v → core.run k s = .next s

/-- The host's placing of an instruction: the next step runs it (a model fact, notes/assumptions/6.md). -/
def Obligations.PlacedWordIsTheNextInstruction : Prop :=
  ∀ (s : State) (w : Word) (i : Instr), s.pc.toNat + 4 ≤ s.mem.size → s.pc.toNat % 4 = 0 → decode w = .ok i →
    step (s.withFetchWord 32 w.toNat) = exec i (s.withFetchWord 32 w.toNat)

/-! ### Invariants and whole-machine rules -/

/-- Every step keeps the invariant: memory stays canonical and of a legal size, a recorded halt is `x[10]`. -/
def Obligations.StepKeepsTheInvariant : Prop :=
  ∀ s t : State, s.inv = true → step s = .next t → t.inv = true

/-- R247: "`pc[0] = 1` can arise only from an odd `ENTRY_PC`": an instruction that runs from an even `pc` leaves an even one. -/
def Obligations.StepLeavesAnEvenPc : Prop :=
  ∀ s t : State, s.pc.toNat % 2 = 0 → step s = .next t → t.pc.toNat % 2 = 0

/-- R53: during the run only SB, SH and SW write memory, and nothing changes its size. -/
def Obligations.OnlyStoresWriteMemory : Prop :=
  ∀ (i : Instr) (s t : State), exec i s = .next t →
    t.mem.size = s.mem.size ∧ (i.isStore = false → ∀ a, t.mem.byte a = s.mem.byte a)

/-- R23's table of writes: of the registers an instruction changes at most its `rd`. -/
def Obligations.OnlyTheDestinationIsWritten : Prop :=
  ∀ (i : Instr) (s t : State), exec i s = .next t → ∀ r, i.dest ≠ some r → t.reg r = s.reg r

/-- R23's table of reads: an instruction's outcome depends on `pc`, memory and the registers it names, on nothing else. -/
def Obligations.OutcomeDependsOnNamedRegistersOnly : Prop :=
  ∀ (i : Instr) (s u : State), s.pc = u.pc → s.mem = u.mem → s.halted = u.halted →
    (∀ r ∈ i.sources, s.reg r = u.reg r) →
    match exec i s, exec i u with
    | .next t, .next v =>
      t.pc = v.pc ∧ t.mem = v.mem ∧ t.halted = v.halted ∧ ∀ rd, i.dest = some rd → t.reg rd = v.reg rd
    | .fault f, .fault g => f = g
    | _, _ => False

/-- R25: the new `pc` of every instruction. -/
def Obligations.PcIsUpdatedByTheTable : Prop :=
  ∀ (i : Instr) (s t : State), i.wf = true → exec i s = .next t → t.pc = i.newPc s

/-- R21: a write of register 0 changes nothing, and register 0 reads 0 in every state. -/
def Obligations.RegisterZeroReadsZero : Prop :=
  (∀ (s : State) (v : Word), s.setReg 0 v = s ∧ (s.setReg 0 v).reg 0 = 0) ∧ ∀ s : State, s.reg 0 = 0

/-- R20: a written register reads back the value, every other register keeps its own. -/
def Obligations.WrittenRegisterReadsBack : Prop :=
  ∀ (s : State) (i r : RegIdx) (v : Word), i ≠ 0 →
    (s.setReg i v).reg i = v ∧ (r ≠ i → (s.setReg i v).reg r = s.reg r)

/-! ### Memory -/

/-- R45, R47: `MemRead` checks the range without wrap and gives the bytes little-endian, zero-extended. -/
def Obligations.MemReadIsLittleEndian : Prop :=
  ∀ (m : Memory) (a : Word) (n : Width),
    (m.size < a.toNat + n.bytes → m.read a n = .error .addressOutOfRange) ∧
    (a.toNat + n.bytes ≤ m.size → ∃ v, m.read a n = .ok v ∧
      (∀ k, k < n.bytes → v.extractLsb' (8 * k) 8 = m.byte (a.toNat + k)) ∧
      v.toNat < 2 ^ (8 * n.bytes))

/-- R46: `MemWrite` checks the range first and then changes exactly `n` bytes. -/
def Obligations.MemWriteStoresExactlyItsBytes : Prop :=
  ∀ (m : Memory) (a : Word) (n : Width) (v : Word),
    (m.size < a.toNat + n.bytes → m.write a n v = .error .addressOutOfRange) ∧
    (a.toNat + n.bytes ≤ m.size → ∃ m', m.write a n v = .ok m' ∧ m'.size = m.size ∧
      (∀ k, k < n.bytes → m'.byte (a.toNat + k) = v.extractLsb' (8 * k) 8) ∧
      ∀ b, b < a.toNat ∨ a.toNat + n.bytes ≤ b → m'.byte b = m.byte b)

/-- Two memories in canonical form that read the same everywhere are the same data (the model's own form of memory). -/
def Obligations.CanonicalMemoriesAreEqualData : Prop :=
  ∀ m m' : Memory, m.wf = true → m'.wf = true → m.size = m'.size → (∀ a, m.byte a = m'.byte a) → m = m'

/-- R55: a load returns the value of the latest store: after SW, a LW of the same address gives the stored word. -/
def Obligations.LoadReturnsTheStoredWord : Prop :=
  ∀ (s t : State) (rs1 rs2 rd base : RegIdx) (off off' : BitVec 12),
    exec (.sw rs1 rs2 (off.setWidth 32)) s = .next t →
    s.reg base + off'.signExtend 32 = s.reg rs1 + off.signExtend 32 →
    ∃ u, exec (.lw rd base (off'.setWidth 32)) t = .next u ∧ WritesReg t u rd (s.reg rs2) (t.pc + 4)

/-- R58: a store into the instruction stream is seen by the very next fetch. Rests on decision D27. -/
def Obligations.StoreIsSeenByTheNextFetch : Prop :=
  ∀ (s t : State) (rs1 rs2 : RegIdx) (off : BitVec 12),
    exec (.sw rs1 rs2 (off.setWidth 32)) s = .next t →
    s.reg rs1 + off.signExtend 32 = s.pc + 4 →
    fetch t = .ok (s.reg rs2)

/-! ### Encoding -/

/-- Words written out from the spec's encodings decode to the instructions they stand for (spec/95 2.1, 2.2 to 2.9). -/
def Obligations.WrittenOutWordsDecode : Prop :=
  decode 0x123452B7 = .ok (.lui 5 0x12345000) ∧
  decode 0xFFFFF297 = .ok (.auipc 5 0xFFFFF000) ∧
  decode 0x800000EF = .ok (.jal 1 0x00100000) ∧
  decode 0x001000EF = .ok (.jal 1 0x00000800) ∧
  decode 0xFFC280E7 = .ok (.jalr 1 0 5 0xFFC) ∧
  decode 0x0020D0E3 = .ok (.bge 1 2 0x800) ∧
  decode 0x8020C063 = .ok (.blt 1 2 0x1000) ∧
  decode 0x00432283 = .ok (.lw 5 6 4) ∧
  decode 0xFE530FA3 = .ok (.sb 6 5 0xFFF) ∧
  decode 0x00500093 = .ok (.addi 1 0 5) ∧
  decode 0x41F35293 = .ok (.srai 5 6 31) ∧
  decode 0x407302B3 = .ok (.sub 5 6 7) ∧
  decode 0x0FF0000F = .ok (.fence 0 0 0) ∧
  decode 0x00100073 = .ok (.ecall 0 0) ∧
  decode 0x30200073 = .ok (.sysNopB3 0x18 0 0) ∧
  decode 0x027302B3 = .error .unsupportedFunct ∧
  decode 0x00000000 = .error .unsupportedOpcode

/-- R97: encoding and then decoding gives the instruction back, for every instruction whose fields the format carries. -/
def Obligations.DecodingUndoesEncoding : Prop :=
  ∀ i : Instr, i.wf = true → decode (encode i) = .ok i

/-- Decoding gives well-formed instructions only (R80 to R84: the immediate's other bits are zero). -/
def Obligations.DecodedInstructionsAreWellFormed : Prop :=
  ∀ (w : Word) (i : Instr), decode w = .ok i → i.wf = true

/-- The other direction: encoding a decoded word gives the word back, in all the bits its Operand carries (R76, R86, R87).
That the encoder writes zeros in the other bits is the model's choice (DESIGN CHOICE, notes/assumptions/10.md). -/
def Obligations.EncodingUndoesDecoding : Prop :=
  ∀ (w : Word) (i : Instr), decode w = .ok i → encode i = w &&& i.carried

/-- R90, with the opcode values of decision D1 (notes/assumptions/7.md): the decoder agrees with the opcode table: a decoded word is of its instruction's row, a word of a row decodes to
an instruction of that row, no word is of two rows, and there are 53 of them. -/
def Obligations.DecoderAgreesWithTheOpcodeTable : Prop :=
  (∀ (w : Word) (i : Instr), decode w = .ok i → i.row.admits w = true) ∧
  (∀ (w : Word) (r : Row), r ∈ opcodeTable → r.admits w = true → ∃ i, decode w = .ok i ∧ i.row = r) ∧
  (∀ (w : Word) (r q : Row), r ∈ opcodeTable → q ∈ opcodeTable → r.admits w = true → q.admits w = true → r = q) ∧
  (∀ i : Instr, i.row ∈ opcodeTable) ∧ opcodeTable.length = 53

/-- The decoder rejects exactly the words whose `word[6:0]` is none of the eleven opcodes, and by that alone. The
eleven values are decision D1 (R73, PRESUMED, notes/assumptions/7.md). -/
def Obligations.UnsupportedOpcodeExactlyOutsideTheEleven : Prop :=
  ∀ w : Word, decode w = .error .unsupportedOpcode ↔
    (w.extractLsb' 0 7).toNat ∉ [0x03, 0x0F, 0x13, 0x17, 0x23, 0x33, 0x37, 0x63, 0x67, 0x6F, 0x73]

/-- R92: the words that decode to an Operand and then select no instruction. Rests on decisions D10 and D11. -/
def Obligations.UnsupportedFunctExactlyByTheTable : Prop :=
  ∀ w : Word, decode w = .error .unsupportedFunct ↔
    let opc := (w.extractLsb' 0 7).toNat
    let f3 := (w.extractLsb' 12 3).toNat
    let f7 := (w.extractLsb' 25 7).toNat
    (opc = 0x63 ∧ f3 ∈ [2, 3]) ∨ (opc = 0x03 ∧ f3 ∈ [3, 6, 7]) ∨ (opc = 0x23 ∧ f3 ∈ [3, 4, 5, 6, 7]) ∨
    (opc = 0x13 ∧ f3 = 5 ∧ f7 ∉ [0x00, 0x20]) ∨
    (opc = 0x33 ∧ ¬(f7 = 0x00 ∨ f7 = 0x20 ∧ f3 ∈ [0, 5]))

/-- R72, R76: which fields of the word the Operand of each kind carries; the others are zero. Rests on decision D6. -/
def Obligations.OperandCarriesItsKindsFields : Prop :=
  ∀ (w : Word) (o : Operand), decodeOperand w = some o →
    o.opcode = w.extractLsb' 0 7 ∧ o.kind.opcode = w.extractLsb' 0 7 ∧
    o.rd = (if o.kind ∈ [.store, .branch] then 0 else w.extractLsb' 7 5) ∧
    o.funct3 = (if o.kind ∈ [.lui, .auipc, .jal] then 0 else w.extractLsb' 12 3) ∧
    o.rs1 = (if o.kind ∈ [.lui, .auipc, .jal] then 0 else w.extractLsb' 15 5) ∧
    o.rs2 = (if o.kind ∈ [.store, .branch, .op] then w.extractLsb' 20 5 else 0) ∧
    o.funct7 = (if o.kind ∈ [.opImm, .op, .system] then w.extractLsb' 25 7 else 0)

/-- R80 to R87: the immediate the decoder reconstructs for each kind, bit field by bit field. R85 rests on decision D7. -/
def Obligations.OperandImmediateIsReconstructed : Prop :=
  ∀ (w : Word) (o : Operand), decodeOperand w = some o →
    (o.kind ∈ [.lui, .auipc] → o.imm = w.extractLsb' 12 20 ++ 0#12) ∧
    (o.kind = .jal → o.imm =
      0#11 ++ w.extractLsb' 31 1 ++ w.extractLsb' 12 8 ++ w.extractLsb' 20 1 ++ w.extractLsb' 21 10 ++ 0#1) ∧
    (o.kind ∈ [.jalr, .load, .opImm] → o.imm = 0#20 ++ w.extractLsb' 20 12) ∧
    (o.kind = .store → o.imm = 0#20 ++ w.extractLsb' 25 7 ++ w.extractLsb' 7 5) ∧
    (o.kind = .branch → o.imm =
      0#19 ++ w.extractLsb' 31 1 ++ w.extractLsb' 7 1 ++ w.extractLsb' 25 6 ++ w.extractLsb' 8 4 ++ 0#1) ∧
    (o.kind = .op → o.imm = 0#27 ++ w.extractLsb' 20 5) ∧
    (o.kind = .miscMem → o.imm = 0) ∧
    (o.kind = .system → o.imm = 0#27 ++ w.extractLsb' 15 5)

/-! ### LUI, AUIPC, JAL, JALR -/

/-- R120. -/
def Obligations.LuiLoadsTheUpperImmediate : Prop :=
  Selects 0x0000007F 0x00000037 (fun w => .lui (w.extractLsb' 7 5) (w.extractLsb' 12 20 ++ 0#12)) ∧
  ∀ (s : State) (rd : RegIdx) (hi : BitVec 20),
    ∃ t, exec (.lui rd (hi ++ 0#12)) s = .next t ∧ WritesReg s t rd (hi ++ 0#12) (s.pc + 4)

/-- R121: the `pc` added is the address of the AUIPC itself. -/
def Obligations.AuipcAddsThePc : Prop :=
  Selects 0x0000007F 0x00000017 (fun w => .auipc (w.extractLsb' 7 5) (w.extractLsb' 12 20 ++ 0#12)) ∧
  ∀ (s : State) (rd : RegIdx) (hi : BitVec 20),
    ∃ t, exec (.auipc rd (hi ++ 0#12)) s = .next t ∧
      WritesReg s t rd (BitVec.ofNat 32 ((s.pc.toNat + hi.toNat * 4096) % 2 ^ 32)) (s.pc + 4)

/-- JAL's rule (R130), with the offset of 21 bits (conflict C1, decision D2) and the target not checked (decision D20):
notes/assumptions/11.md. -/
def Obligations.JalLinksAndJumps : Prop :=
  Selects 0x0000007F 0x0000006F (fun w => .jal (w.extractLsb' 7 5)
    (0#11 ++ w.extractLsb' 31 1 ++ w.extractLsb' 12 8 ++ w.extractLsb' 20 1 ++ w.extractLsb' 21 10 ++ 0#1)) ∧
  ∀ (s : State) (rd : RegIdx) (off : BitVec 20),
    ∃ t, exec (.jal rd (0#11 ++ off ++ 0#1)) s = .next t ∧
      WritesReg s t rd (s.pc + 4) (BitVec.ofInt 32 (s.pc.toInt + 2 * off.toInt))

/-- R131: the target comes from the old `x[rs1]`, also when `rd = rs1`; bit 0 is cleared. That `funct3` is not examined
is decision D12. -/
def Obligations.JalrLinksAndJumps : Prop :=
  Selects 0x0000007F 0x00000067 (fun w => .jalr (w.extractLsb' 7 5) (w.extractLsb' 12 3) (w.extractLsb' 15 5)
    ((w.extractLsb' 20 12).setWidth 32)) ∧
  ∀ (s : State) (rd rs1 : RegIdx) (funct3 : BitVec 3) (off : BitVec 12),
    ∃ t, exec (.jalr rd funct3 rs1 (off.setWidth 32)) s = .next t ∧
      WritesReg s t rd (s.pc + 4) ((s.reg rs1 + off.signExtend 32) &&& 0xFFFFFFFE)

/-! ### Branches -/

/-- R141, R142. The offset of 13 bits is conflict C2, decision D3, and the
target is not checked (decision D20): notes/assumptions/11.md. -/
def Obligations.EqualityBranches : Prop :=
  Selects 0x0000707F 0x00000063 (fun w => .beq (w.extractLsb' 15 5) (w.extractLsb' 20 5)
    (0#19 ++ w.extractLsb' 31 1 ++ w.extractLsb' 7 1 ++ w.extractLsb' 25 6 ++ w.extractLsb' 8 4 ++ 0#1)) ∧
  Selects 0x0000707F 0x00001063 (fun w => .bne (w.extractLsb' 15 5) (w.extractLsb' 20 5)
    (0#19 ++ w.extractLsb' 31 1 ++ w.extractLsb' 7 1 ++ w.extractLsb' 25 6 ++ w.extractLsb' 8 4 ++ 0#1)) ∧
  ∀ (s : State) (rs1 rs2 : RegIdx) (off : BitVec 12),
    let target := BitVec.ofInt 32 (s.pc.toInt + 2 * off.toInt)
    (∃ t, exec (.beq rs1 rs2 (0#19 ++ off ++ 0#1)) s = .next t ∧
      WritesPc s t (if s.reg rs1 = s.reg rs2 then target else s.pc + 4)) ∧
    (∃ t, exec (.bne rs1 rs2 (0#19 ++ off ++ 0#1)) s = .next t ∧
      WritesPc s t (if s.reg rs1 = s.reg rs2 then s.pc + 4 else target))

/-- R143, R144: the comparison is signed. The offset of 13 bits is conflict C2, decision D3, and the
target is not checked (decision D20): notes/assumptions/11.md. -/
def Obligations.SignedBranches : Prop :=
  Selects 0x0000707F 0x00004063 (fun w => .blt (w.extractLsb' 15 5) (w.extractLsb' 20 5)
    (0#19 ++ w.extractLsb' 31 1 ++ w.extractLsb' 7 1 ++ w.extractLsb' 25 6 ++ w.extractLsb' 8 4 ++ 0#1)) ∧
  Selects 0x0000707F 0x00005063 (fun w => .bge (w.extractLsb' 15 5) (w.extractLsb' 20 5)
    (0#19 ++ w.extractLsb' 31 1 ++ w.extractLsb' 7 1 ++ w.extractLsb' 25 6 ++ w.extractLsb' 8 4 ++ 0#1)) ∧
  ∀ (s : State) (rs1 rs2 : RegIdx) (off : BitVec 12),
    let target := BitVec.ofInt 32 (s.pc.toInt + 2 * off.toInt)
    (∃ t, exec (.blt rs1 rs2 (0#19 ++ off ++ 0#1)) s = .next t ∧
      WritesPc s t (if (s.reg rs1).toInt < (s.reg rs2).toInt then target else s.pc + 4)) ∧
    (∃ t, exec (.bge rs1 rs2 (0#19 ++ off ++ 0#1)) s = .next t ∧
      WritesPc s t (if (s.reg rs1).toInt ≥ (s.reg rs2).toInt then target else s.pc + 4))

/-- R145, R146: the comparison is unsigned. The offset of 13 bits is conflict C2, decision D3, and the
target is not checked (decision D20): notes/assumptions/11.md. -/
def Obligations.UnsignedBranches : Prop :=
  Selects 0x0000707F 0x00006063 (fun w => .bltu (w.extractLsb' 15 5) (w.extractLsb' 20 5)
    (0#19 ++ w.extractLsb' 31 1 ++ w.extractLsb' 7 1 ++ w.extractLsb' 25 6 ++ w.extractLsb' 8 4 ++ 0#1)) ∧
  Selects 0x0000707F 0x00007063 (fun w => .bgeu (w.extractLsb' 15 5) (w.extractLsb' 20 5)
    (0#19 ++ w.extractLsb' 31 1 ++ w.extractLsb' 7 1 ++ w.extractLsb' 25 6 ++ w.extractLsb' 8 4 ++ 0#1)) ∧
  ∀ (s : State) (rs1 rs2 : RegIdx) (off : BitVec 12),
    let target := BitVec.ofInt 32 (s.pc.toInt + 2 * off.toInt)
    (∃ t, exec (.bltu rs1 rs2 (0#19 ++ off ++ 0#1)) s = .next t ∧
      WritesPc s t (if (s.reg rs1).toNat < (s.reg rs2).toNat then target else s.pc + 4)) ∧
    (∃ t, exec (.bgeu rs1 rs2 (0#19 ++ off ++ 0#1)) s = .next t ∧
      WritesPc s t (if (s.reg rs1).toNat ≥ (s.reg rs2).toNat then target else s.pc + 4))

/-! ### Loads: result, frame, and where each faults

The range test without wrap (R45, R47) is decision D19; that alignment is tested before the range (R48, and the order of
the faults in each rule) is decision D16. -/

/-- R161, R164. -/
def Obligations.ByteLoads : Prop :=
  Selects 0x0000707F 0x00000003
    (fun w => .lb (w.extractLsb' 7 5) (w.extractLsb' 15 5) ((w.extractLsb' 20 12).setWidth 32)) ∧
  Selects 0x0000707F 0x00004003
    (fun w => .lbu (w.extractLsb' 7 5) (w.extractLsb' 15 5) ((w.extractLsb' 20 12).setWidth 32)) ∧
  ∀ (s : State) (rd rs1 : RegIdx) (off : BitVec 12) (a : Word), a = s.reg rs1 + off.signExtend 32 →
    (a.toNat < s.mem.size →
      (∃ t, exec (.lb rd rs1 (off.setWidth 32)) s = .next t ∧
        WritesReg s t rd ((s.mem.byte a.toNat).signExtend 32) (s.pc + 4)) ∧
      (∃ t, exec (.lbu rd rs1 (off.setWidth 32)) s = .next t ∧
        WritesReg s t rd ((s.mem.byte a.toNat).setWidth 32) (s.pc + 4))) ∧
    (s.mem.size ≤ a.toNat →
      exec (.lb rd rs1 (off.setWidth 32)) s = .fault (.raised .addressOutOfRange) ∧
      exec (.lbu rd rs1 (off.setWidth 32)) s = .fault (.raised .addressOutOfRange))

/-- R162, R165: little-endian halfwords. That a misaligned address is reported before one out of range is decision D16
(notes/assumptions/11.md). -/
def Obligations.HalfwordLoads : Prop :=
  Selects 0x0000707F 0x00001003
    (fun w => .lh (w.extractLsb' 7 5) (w.extractLsb' 15 5) ((w.extractLsb' 20 12).setWidth 32)) ∧
  Selects 0x0000707F 0x00005003
    (fun w => .lhu (w.extractLsb' 7 5) (w.extractLsb' 15 5) ((w.extractLsb' 20 12).setWidth 32)) ∧
  ∀ (s : State) (rd rs1 : RegIdx) (off : BitVec 12) (a : Word), a = s.reg rs1 + off.signExtend 32 →
    (a.toNat % 2 = 0 → a.toNat + 2 ≤ s.mem.size →
      (∃ t, exec (.lh rd rs1 (off.setWidth 32)) s = .next t ∧
        WritesReg s t rd ((s.mem.byte (a.toNat + 1) ++ s.mem.byte a.toNat).signExtend 32) (s.pc + 4)) ∧
      (∃ t, exec (.lhu rd rs1 (off.setWidth 32)) s = .next t ∧
        WritesReg s t rd ((s.mem.byte (a.toNat + 1) ++ s.mem.byte a.toNat).setWidth 32) (s.pc + 4))) ∧
    (a.toNat % 2 ≠ 0 →
      exec (.lh rd rs1 (off.setWidth 32)) s = .fault (.raised .addressMisaligned) ∧
      exec (.lhu rd rs1 (off.setWidth 32)) s = .fault (.raised .addressMisaligned)) ∧
    (a.toNat % 2 = 0 → s.mem.size < a.toNat + 2 →
      exec (.lh rd rs1 (off.setWidth 32)) s = .fault (.raised .addressOutOfRange) ∧
      exec (.lhu rd rs1 (off.setWidth 32)) s = .fault (.raised .addressOutOfRange))

/-- R163. That a misaligned address is reported before one out of range is decision D16 (notes/assumptions/11.md). -/
def Obligations.WordLoad : Prop :=
  Selects 0x0000707F 0x00002003
    (fun w => .lw (w.extractLsb' 7 5) (w.extractLsb' 15 5) ((w.extractLsb' 20 12).setWidth 32)) ∧
  ∀ (s : State) (rd rs1 : RegIdx) (off : BitVec 12) (a : Word), a = s.reg rs1 + off.signExtend 32 →
    (a.toNat % 4 = 0 → a.toNat + 4 ≤ s.mem.size →
      ∃ t, exec (.lw rd rs1 (off.setWidth 32)) s = .next t ∧
        WritesReg s t rd (s.mem.byte (a.toNat + 3) ++ s.mem.byte (a.toNat + 2) ++ s.mem.byte (a.toNat + 1) ++
          s.mem.byte a.toNat) (s.pc + 4)) ∧
    (a.toNat % 4 ≠ 0 → exec (.lw rd rs1 (off.setWidth 32)) s = .fault (.raised .addressMisaligned)) ∧
    (a.toNat % 4 = 0 → s.mem.size < a.toNat + 4 →
      exec (.lw rd rs1 (off.setWidth 32)) s = .fault (.raised .addressOutOfRange))

/-! ### Stores: bytes stored, frame, and where each faults (D16 and D19 as for the loads) -/

/-- R181. -/
def Obligations.ByteStore : Prop :=
  Selects 0x0000707F 0x00000023 (fun w => .sb (w.extractLsb' 15 5) (w.extractLsb' 20 5)
    (0#20 ++ w.extractLsb' 25 7 ++ w.extractLsb' 7 5)) ∧
  ∀ (s : State) (rs1 rs2 : RegIdx) (off : BitVec 12) (a : Word), a = s.reg rs1 + off.signExtend 32 →
    (a.toNat < s.mem.size → ∃ t, exec (.sb rs1 rs2 (off.setWidth 32)) s = .next t ∧ WritesMem s t a 1 (s.reg rs2)) ∧
    (s.mem.size ≤ a.toNat → exec (.sb rs1 rs2 (off.setWidth 32)) s = .fault (.raised .addressOutOfRange))

/-- R182. That a misaligned address is reported before one out of range is decision D16 (notes/assumptions/11.md). -/
def Obligations.HalfwordStore : Prop :=
  Selects 0x0000707F 0x00001023 (fun w => .sh (w.extractLsb' 15 5) (w.extractLsb' 20 5)
    (0#20 ++ w.extractLsb' 25 7 ++ w.extractLsb' 7 5)) ∧
  ∀ (s : State) (rs1 rs2 : RegIdx) (off : BitVec 12) (a : Word), a = s.reg rs1 + off.signExtend 32 →
    (a.toNat % 2 = 0 → a.toNat + 2 ≤ s.mem.size →
      ∃ t, exec (.sh rs1 rs2 (off.setWidth 32)) s = .next t ∧ WritesMem s t a 2 (s.reg rs2)) ∧
    (a.toNat % 2 ≠ 0 → exec (.sh rs1 rs2 (off.setWidth 32)) s = .fault (.raised .addressMisaligned)) ∧
    (a.toNat % 2 = 0 → s.mem.size < a.toNat + 2 →
      exec (.sh rs1 rs2 (off.setWidth 32)) s = .fault (.raised .addressOutOfRange))

/-- R183. That a misaligned address is reported before one out of range is decision D16 (notes/assumptions/11.md). -/
def Obligations.WordStore : Prop :=
  Selects 0x0000707F 0x00002023 (fun w => .sw (w.extractLsb' 15 5) (w.extractLsb' 20 5)
    (0#20 ++ w.extractLsb' 25 7 ++ w.extractLsb' 7 5)) ∧
  ∀ (s : State) (rs1 rs2 : RegIdx) (off : BitVec 12) (a : Word), a = s.reg rs1 + off.signExtend 32 →
    (a.toNat % 4 = 0 → a.toNat + 4 ≤ s.mem.size →
      ∃ t, exec (.sw rs1 rs2 (off.setWidth 32)) s = .next t ∧ WritesMem s t a 4 (s.reg rs2)) ∧
    (a.toNat % 4 ≠ 0 → exec (.sw rs1 rs2 (off.setWidth 32)) s = .fault (.raised .addressMisaligned)) ∧
    (a.toNat % 4 = 0 → s.mem.size < a.toNat + 4 →
      exec (.sw rs1 rs2 (off.setWidth 32)) s = .fault (.raised .addressOutOfRange))

/-! ### OP-IMM -/

/-- R191, R192. -/
def Obligations.AddImmediateAndSetLessThanImmediate : Prop :=
  Selects 0x0000707F 0x00000013
    (fun w => .addi (w.extractLsb' 7 5) (w.extractLsb' 15 5) ((w.extractLsb' 20 12).setWidth 32)) ∧
  Selects 0x0000707F 0x00002013
    (fun w => .slti (w.extractLsb' 7 5) (w.extractLsb' 15 5) ((w.extractLsb' 20 12).setWidth 32)) ∧
  ∀ (s : State) (rd rs1 : RegIdx) (off : BitVec 12),
    (∃ t, exec (.addi rd rs1 (off.setWidth 32)) s = .next t ∧
      WritesReg s t rd (BitVec.ofInt 32 ((s.reg rs1).toInt + off.toInt)) (s.pc + 4)) ∧
    (∃ t, exec (.slti rd rs1 (off.setWidth 32)) s = .next t ∧
      WritesReg s t rd (if (s.reg rs1).toInt < off.toInt then 1 else 0) (s.pc + 4))

/-- R193: the immediate is sign-extended first and then read as unsigned (the spec marks the rule as derived). -/
def Obligations.SetLessThanImmediateUnsigned : Prop :=
  Selects 0x0000707F 0x00003013
    (fun w => .sltiu (w.extractLsb' 7 5) (w.extractLsb' 15 5) ((w.extractLsb' 20 12).setWidth 32)) ∧
  ∀ (s : State) (rd rs1 : RegIdx) (off : BitVec 12),
    ∃ t, exec (.sltiu rd rs1 (off.setWidth 32)) s = .next t ∧
      WritesReg s t rd (if (s.reg rs1).toNat < (off.signExtend 32).toNat then 1 else 0) (s.pc + 4)

/-- R194, R195, R196. -/
def Obligations.LogicImmediates : Prop :=
  Selects 0x0000707F 0x00004013
    (fun w => .xori (w.extractLsb' 7 5) (w.extractLsb' 15 5) ((w.extractLsb' 20 12).setWidth 32)) ∧
  Selects 0x0000707F 0x00006013
    (fun w => .ori (w.extractLsb' 7 5) (w.extractLsb' 15 5) ((w.extractLsb' 20 12).setWidth 32)) ∧
  Selects 0x0000707F 0x00007013
    (fun w => .andi (w.extractLsb' 7 5) (w.extractLsb' 15 5) ((w.extractLsb' 20 12).setWidth 32)) ∧
  ∀ (s : State) (rd rs1 : RegIdx) (off : BitVec 12),
    (∃ t, exec (.xori rd rs1 (off.setWidth 32)) s = .next t ∧
      WritesReg s t rd (s.reg rs1 ^^^ off.signExtend 32) (s.pc + 4)) ∧
    (∃ t, exec (.ori rd rs1 (off.setWidth 32)) s = .next t ∧
      WritesReg s t rd (s.reg rs1 ||| off.signExtend 32) (s.pc + 4)) ∧
    (∃ t, exec (.andi rd rs1 (off.setWidth 32)) s = .next t ∧
      WritesReg s t rd (s.reg rs1 &&& off.signExtend 32) (s.pc + 4))

/-- R197: `word[24:20]` is the shift amount; that `funct7` is not examined is decision D9. -/
def Obligations.ShiftLeftImmediate : Prop :=
  Selects 0x0000707F 0x00001013
    (fun w => .slli (w.extractLsb' 7 5) (w.extractLsb' 15 5) (w.extractLsb' 25 7) (w.extractLsb' 20 5)) ∧
  ∀ (s : State) (rd rs1 : RegIdx) (funct7 : BitVec 7) (shamt : BitVec 5),
    ∃ t, exec (.slli rd rs1 funct7 shamt) s = .next t ∧
      WritesReg s t rd (BitVec.ofNat 32 ((s.reg rs1).toNat * 2 ^ shamt.toNat)) (s.pc + 4)

/-- R198, R199: logical, and arithmetic as the floor of the signed quotient. -/
def Obligations.ShiftRightImmediates : Prop :=
  Selects 0xFE00707F 0x00005013 (fun w => .srli (w.extractLsb' 7 5) (w.extractLsb' 15 5) (w.extractLsb' 20 5)) ∧
  Selects 0xFE00707F 0x40005013 (fun w => .srai (w.extractLsb' 7 5) (w.extractLsb' 15 5) (w.extractLsb' 20 5)) ∧
  ∀ (s : State) (rd rs1 : RegIdx) (shamt : BitVec 5),
    (∃ t, exec (.srli rd rs1 shamt) s = .next t ∧
      WritesReg s t rd (BitVec.ofNat 32 ((s.reg rs1).toNat / 2 ^ shamt.toNat)) (s.pc + 4)) ∧
    (∃ t, exec (.srai rd rs1 shamt) s = .next t ∧
      WritesReg s t rd (BitVec.ofInt 32 ((s.reg rs1).toInt / 2 ^ shamt.toNat)) (s.pc + 4))

/-! ### OP -/

/-- R211, R212: modulo `2^32`, without fault. -/
def Obligations.AddAndSubtract : Prop :=
  Selects 0xFE00707F 0x00000033 (fun w => .add (w.extractLsb' 7 5) (w.extractLsb' 15 5) (w.extractLsb' 20 5)) ∧
  Selects 0xFE00707F 0x40000033 (fun w => .sub (w.extractLsb' 7 5) (w.extractLsb' 15 5) (w.extractLsb' 20 5)) ∧
  ∀ (s : State) (rd rs1 rs2 : RegIdx),
    (∃ t, exec (.add rd rs1 rs2) s = .next t ∧
      WritesReg s t rd (BitVec.ofNat 32 (((s.reg rs1).toNat + (s.reg rs2).toNat) % 2 ^ 32)) (s.pc + 4)) ∧
    (∃ t, exec (.sub rd rs1 rs2) s = .next t ∧
      WritesReg s t rd (BitVec.ofInt 32 ((s.reg rs1).toInt - (s.reg rs2).toInt)) (s.pc + 4))

/-- R214, R215. -/
def Obligations.SetLessThan : Prop :=
  Selects 0xFE00707F 0x00002033 (fun w => .slt (w.extractLsb' 7 5) (w.extractLsb' 15 5) (w.extractLsb' 20 5)) ∧
  Selects 0xFE00707F 0x00003033 (fun w => .sltu (w.extractLsb' 7 5) (w.extractLsb' 15 5) (w.extractLsb' 20 5)) ∧
  ∀ (s : State) (rd rs1 rs2 : RegIdx),
    (∃ t, exec (.slt rd rs1 rs2) s = .next t ∧
      WritesReg s t rd (if (s.reg rs1).toInt < (s.reg rs2).toInt then 1 else 0) (s.pc + 4)) ∧
    (∃ t, exec (.sltu rd rs1 rs2) s = .next t ∧
      WritesReg s t rd (if (s.reg rs1).toNat < (s.reg rs2).toNat then 1 else 0) (s.pc + 4))

/-- R216, R219, R220. -/
def Obligations.LogicOperations : Prop :=
  Selects 0xFE00707F 0x00004033 (fun w => .xor (w.extractLsb' 7 5) (w.extractLsb' 15 5) (w.extractLsb' 20 5)) ∧
  Selects 0xFE00707F 0x00006033 (fun w => .or (w.extractLsb' 7 5) (w.extractLsb' 15 5) (w.extractLsb' 20 5)) ∧
  Selects 0xFE00707F 0x00007033 (fun w => .and (w.extractLsb' 7 5) (w.extractLsb' 15 5) (w.extractLsb' 20 5)) ∧
  ∀ (s : State) (rd rs1 rs2 : RegIdx),
    (∃ t, exec (.xor rd rs1 rs2) s = .next t ∧ WritesReg s t rd (s.reg rs1 ^^^ s.reg rs2) (s.pc + 4)) ∧
    (∃ t, exec (.or rd rs1 rs2) s = .next t ∧ WritesReg s t rd (s.reg rs1 ||| s.reg rs2) (s.pc + 4)) ∧
    (∃ t, exec (.and rd rs1 rs2) s = .next t ∧ WritesReg s t rd (s.reg rs1 &&& s.reg rs2) (s.pc + 4))

/-- R213, R217, R218: only the low 5 bits of the shift source count. -/
def Obligations.RegisterShifts : Prop :=
  Selects 0xFE00707F 0x00001033 (fun w => .sll (w.extractLsb' 7 5) (w.extractLsb' 15 5) (w.extractLsb' 20 5)) ∧
  Selects 0xFE00707F 0x00005033 (fun w => .srl (w.extractLsb' 7 5) (w.extractLsb' 15 5) (w.extractLsb' 20 5)) ∧
  Selects 0xFE00707F 0x40005033 (fun w => .sra (w.extractLsb' 7 5) (w.extractLsb' 15 5) (w.extractLsb' 20 5)) ∧
  ∀ (s : State) (rd rs1 rs2 : RegIdx),
    let k := (s.reg rs2).toNat % 32
    (∃ t, exec (.sll rd rs1 rs2) s = .next t ∧
      WritesReg s t rd (BitVec.ofNat 32 ((s.reg rs1).toNat * 2 ^ k)) (s.pc + 4)) ∧
    (∃ t, exec (.srl rd rs1 rs2) s = .next t ∧
      WritesReg s t rd (BitVec.ofNat 32 ((s.reg rs1).toNat / 2 ^ k)) (s.pc + 4)) ∧
    (∃ t, exec (.sra rd rs1 rs2) s = .next t ∧
      WritesReg s t rd (BitVec.ofInt 32 ((s.reg rs1).toInt / 2 ^ k)) (s.pc + 4))

/-! ### MISC-MEM and SYSTEM -/

/-- R230: every MISC-MEM word only advances `pc`; that its fields are ignored is decision D13. -/
def Obligations.FenceOnlyAdvancesPc : Prop :=
  Selects 0x0000007F 0x0000000F (fun w => .fence (w.extractLsb' 7 5) (w.extractLsb' 12 3) (w.extractLsb' 15 5)) ∧
  ∀ (s : State) (rd rs1 : RegIdx) (funct3 : BitVec 3),
    ∃ t, exec (.fence rd funct3 rs1) s = .next t ∧ WritesPc s t (s.pc + 4)

/-- R236: ECALL gives back `x[10]` and writes no register, no memory byte and not `pc`. That the result value is
recorded in the state is the model's choice (notes/assumptions/5.md); the words selected and the `pc` are D14 and D15. -/
def Obligations.EcallHaltsWithA0 : Prop :=
  Selects 0xFE00707F 0x00000073 (fun w => .ecall (w.extractLsb' 7 5) (w.extractLsb' 15 5)) ∧
  ∀ (s : State) (rd rs1 : RegIdx),
    ∃ t, exec (.ecall rd rs1) s = .next t ∧ t.halted = some (s.reg 10) ∧ t.pc = s.pc ∧
      (∀ r, t.reg r = s.reg r) ∧ SameMemory s t

/-- R237: every other SYSTEM word only advances `pc`; `x[rd]` is not written. -/
def Obligations.OtherSystemWordsOnlyAdvancePc : Prop :=
  Selects 0x0000707F 0x00001073 (fun w => .sysNopF1 (w.extractLsb' 25 7) (w.extractLsb' 7 5) (w.extractLsb' 15 5)) ∧
  Selects 0x0000707F 0x00002073 (fun w => .sysNopF2 (w.extractLsb' 25 7) (w.extractLsb' 7 5) (w.extractLsb' 15 5)) ∧
  Selects 0x0000707F 0x00003073 (fun w => .sysNopF3 (w.extractLsb' 25 7) (w.extractLsb' 7 5) (w.extractLsb' 15 5)) ∧
  Selects 0x0000707F 0x00004073 (fun w => .sysNopF4 (w.extractLsb' 25 7) (w.extractLsb' 7 5) (w.extractLsb' 15 5)) ∧
  Selects 0x0000707F 0x00005073 (fun w => .sysNopF5 (w.extractLsb' 25 7) (w.extractLsb' 7 5) (w.extractLsb' 15 5)) ∧
  Selects 0x0000707F 0x00006073 (fun w => .sysNopF6 (w.extractLsb' 25 7) (w.extractLsb' 7 5) (w.extractLsb' 15 5)) ∧
  Selects 0x0000707F 0x00007073 (fun w => .sysNopF7 (w.extractLsb' 25 7) (w.extractLsb' 7 5) (w.extractLsb' 15 5)) ∧
  Selects 0x0200707F 0x02000073 (fun w => .sysNopB0 (w.extractLsb' 25 7) (w.extractLsb' 7 5) (w.extractLsb' 15 5)) ∧
  Selects 0x0600707F 0x04000073 (fun w => .sysNopB1 (w.extractLsb' 25 7) (w.extractLsb' 7 5) (w.extractLsb' 15 5)) ∧
  Selects 0x0E00707F 0x08000073 (fun w => .sysNopB2 (w.extractLsb' 25 7) (w.extractLsb' 7 5) (w.extractLsb' 15 5)) ∧
  Selects 0x1E00707F 0x10000073 (fun w => .sysNopB3 (w.extractLsb' 25 7) (w.extractLsb' 7 5) (w.extractLsb' 15 5)) ∧
  Selects 0x3E00707F 0x20000073 (fun w => .sysNopB4 (w.extractLsb' 25 7) (w.extractLsb' 7 5) (w.extractLsb' 15 5)) ∧
  Selects 0x7E00707F 0x40000073 (fun w => .sysNopB5 (w.extractLsb' 25 7) (w.extractLsb' 7 5) (w.extractLsb' 15 5)) ∧
  Selects 0xFE00707F 0x80000073 (fun w => .sysNopB6 (w.extractLsb' 25 7) (w.extractLsb' 7 5) (w.extractLsb' 15 5)) ∧
  ∀ (s : State) (funct7 : BitVec 7) (rd rs1 : RegIdx), ∀ i ∈
    ([.sysNopF1 funct7 rd rs1, .sysNopF2 funct7 rd rs1, .sysNopF3 funct7 rd rs1, .sysNopF4 funct7 rd rs1,
      .sysNopF5 funct7 rd rs1, .sysNopF6 funct7 rd rs1, .sysNopF7 funct7 rd rs1, .sysNopB0 funct7 rd rs1,
      .sysNopB1 funct7 rd rs1, .sysNopB2 funct7 rd rs1, .sysNopB3 funct7 rd rs1, .sysNopB4 funct7 rd rs1,
      .sysNopB5 funct7 rd rs1, .sysNopB6 funct7 rd rs1] : List Instr),
    ∃ t, exec i s = .next t ∧ WritesPc s t (s.pc + 4)
end

