-- ==== Sys2Proof/Laws/Operands.lean ====
section
/-! SUPPORT. The operand forms as the signed numbers the spec means (R12, R88), what well-formedness says of an
immediate's bits, and the comparisons and shifts as integer arithmetic (R11, R89, R222). -/

namespace Sys2Proof

/-- A field of bits that is zero has no bit set. -/
theorem getLsbD_of_extract_zero (v : Word) (lo n i : Nat) (h : v.extractLsb' lo n = 0) (h1 : lo ≤ i) (h2 : i < lo + n) :
    v.getLsbD i = false := by
  have hb := congrArg (fun x => BitVec.getLsbD x (i - lo)) h
  simp only [BitVec.getLsbD_extractLsb', BitVec.ofNat_eq_ofNat, BitVec.getLsbD_zero] at hb
  simpa [(by omega : i - lo < n), (by omega : lo + (i - lo) = i)] using hb

theorem immFits12_bits (imm : Word) (h : immFits12 imm = true) (i : Nat) (hi : 12 ≤ i) : imm.getLsbD i = false := by
  by_cases h32 : i < 32
  · exact getLsbD_of_extract_zero imm 12 20 i (by simpa [immFits12] using h) hi (by omega)
  · exact BitVec.getLsbD_of_ge _ _ (by omega)

theorem immFitsU_bits (imm : Word) (h : immFitsU imm = true) (i : Nat) (hi : i < 12) : imm.getLsbD i = false :=
  getLsbD_of_extract_zero imm 0 12 i (by simpa [immFitsU] using h) (by omega) (by omega)

theorem immFitsB_bits (imm : Word) (h : immFitsB imm = true) (i : Nat) (hi : i = 0 ∨ 13 ≤ i) :
    imm.getLsbD i = false := by
  simp only [immFitsB, Bool.and_eq_true, beq_iff_eq] at h
  rcases hi with rfl | hi
  · exact getLsbD_of_extract_zero imm 0 1 0 h.1 (by omega) (by omega)
  · by_cases h32 : i < 32
    · exact getLsbD_of_extract_zero imm 13 19 i h.2 hi (by omega)
    · exact BitVec.getLsbD_of_ge _ _ (by omega)

theorem immFitsJ_bits (imm : Word) (h : immFitsJ imm = true) (i : Nat) (hi : i = 0 ∨ 21 ≤ i) :
    imm.getLsbD i = false := by
  simp only [immFitsJ, Bool.and_eq_true, beq_iff_eq] at h
  rcases hi with rfl | hi
  · exact getLsbD_of_extract_zero imm 0 1 0 h.1 (by omega) (by omega)
  · by_cases h32 : i < 32
    · exact getLsbD_of_extract_zero imm 21 11 i h.2 hi (by omega)
    · exact BitVec.getLsbD_of_ge _ _ (by omega)

namespace Machine

/-- `sext_N` of a value whose bits from `N` on are zero is the two's-complement value of its low `N` bits (R12). -/
theorem sext_eq_signExtend (n : Nat) (v : Word) (h0 : 0 < n) (hn : n ≤ 32)
    (hz : ∀ i, n ≤ i → v.getLsbD i = false) : sext n v = (v.extractLsb' 0 n).signExtend 32 := by
  have hlit : ∀ j, (0xFFFFFFFF#32).getLsbD j = decide (j < 32) := by
    intro j
    rw [show (0xFFFFFFFF#32) = BitVec.allOnes 32 by decide, BitVec.getLsbD_allOnes]
  apply BitVec.eq_of_getLsbD_eq
  intro i hi
  rw [BitVec.getLsbD_signExtend, BitVec.msb_eq_getLsbD_last, BitVec.getLsbD_extractLsb', BitVec.getLsbD_extractLsb']
  simp only [Nat.zero_add, hi, decide_true, Bool.true_and, (by omega : n - 1 < n)]
  unfold sext
  by_cases hs : v.getLsbD (n - 1) = true
  · rw [if_pos hs, BitVec.getLsbD_or, BitVec.getLsbD_shiftLeft, hlit]
    by_cases hin : i < n
    · simp [hin]
    · simp [hin, hs, hi, (by omega : i - n < 32)]
  · rw [if_neg hs]
    by_cases hin : i < n
    · simp [hin]
    · rw [if_neg hin, hz i (by omega)]
      simpa using hs

/-- The 12-bit immediate of a well-formed instruction (R88). -/
theorem imm12_eq (imm : Word) (h : immFits12 imm = true) : imm12 imm = (imm.extractLsb' 0 12).signExtend 32 :=
  sext_eq_signExtend 12 imm (by omega) (by omega) (immFits12_bits imm h)

/-- The offset of a well-formed branch (R88). -/
theorem branchOffset_eq (imm : Word) (h : immFitsB imm = true) :
    branchOffset imm = (imm.extractLsb' 0 13).signExtend 32 :=
  sext_eq_signExtend 13 imm (by omega) (by omega) fun i hi => immFitsB_bits imm h i (Or.inr hi)

/-- The offset of a well-formed JAL (R88). -/
theorem jalOffset_eq (imm : Word) (h : immFitsJ imm = true) :
    jalOffset imm = (imm.extractLsb' 0 21).signExtend 32 :=
  sext_eq_signExtend 21 imm (by omega) (by omega) fun i hi => immFitsJ_bits imm h i (Or.inr hi)

/-- `sext_N` of a zero-extended `N`-bit field. -/
theorem sext_setWidth (n : Nat) (f : BitVec n) (h0 : 0 < n) (hn : n ≤ 32) :
    sext n (f.setWidth 32) = f.signExtend 32 := by
  rw [sext_eq_signExtend n _ h0 hn]
  · congr 1
    apply BitVec.eq_of_getLsbD_eq
    intro i hi
    simp [hi, (by omega : i < 32)]
  · intro i hi
    rw [BitVec.getLsbD_setWidth, BitVec.getLsbD_of_ge f i hi, Bool.and_false]

@[simp] theorem imm12_setWidth (f : BitVec 12) : imm12 (f.setWidth 32) = f.signExtend 32 :=
  sext_setWidth 12 f (by omega) (by omega)

/-- An even offset of `n + 1` bits, written as its free bits with a zero below: twice the signed number. -/
theorem sext_even (n : Nat) (f : BitVec n) (h0 : 0 < n) (hn : n + 1 ≤ 32) :
    sext (n + 1) ((f ++ 0#1).setWidth 32) = BitVec.ofInt 32 (2 * f.toInt) := by
  rw [sext_setWidth (n + 1) (f ++ 0#1) (by omega) hn, BitVec.signExtend]
  congr 1
  have hT : (f ++ 0#1).toNat = f.toNat * 2 := by
    rw [BitVec.toNat_append]
    simp [Nat.shiftLeft_eq]
  rw [BitVec.toInt_eq_toNat_cond, BitVec.toInt_eq_toNat_cond, hT, Nat.pow_succ]
  have hlt := f.isLt
  split <;> split <;> push_cast <;> omega

@[simp] theorem branchOffset_even (f : BitVec 12) : branchOffset (0#19 ++ f ++ 0#1) = BitVec.ofInt 32 (2 * f.toInt) := by
  rw [← sext_even 12 f (by omega) (by omega)]
  congr 1
  apply BitVec.eq_of_getLsbD_eq
  intro i hi
  simp only [BitVec.getLsbD_append, BitVec.getLsbD_setWidth, hi, decide_true, Bool.true_and]
  by_cases h1 : i < 1
  · simp [h1]
  · by_cases h2 : i - 1 < 12
    · simp [h1, h2]
    · simp only [h1, h2, if_false]
      rw [BitVec.getLsbD_of_ge f _ (by omega)]
      simp

@[simp] theorem jalOffset_even (f : BitVec 20) : jalOffset (0#11 ++ f ++ 0#1) = BitVec.ofInt 32 (2 * f.toInt) := by
  rw [← sext_even 20 f (by omega) (by omega)]
  congr 1
  apply BitVec.eq_of_getLsbD_eq
  intro i hi
  simp only [BitVec.getLsbD_append, BitVec.getLsbD_setWidth, hi, decide_true, Bool.true_and]
  by_cases h1 : i < 1
  · simp [h1]
  · by_cases h2 : i - 1 < 20
    · simp [h1, h2]
    · simp only [h1, h2, if_false]
      rw [BitVec.getLsbD_of_ge f _ (by omega)]
      simp

/-! ### Comparisons and shifts -/

theorem ltSigned_iff (a b : Word) : ltSigned a b = true ↔ a.toInt < b.toInt := by
  simp [ltSigned, BitVec.slt]

theorem ltUnsigned_iff (a b : Word) : ltUnsigned a b = true ↔ a.toNat < b.toNat := by
  simp [ltUnsigned, BitVec.ult]

/-- The low 5 bits of the shift source (R89). -/
theorem shiftAmount_eq (v : Word) : shiftAmount v = v.toNat % 32 := by
  simp [shiftAmount, BitVec.extractLsb'_toNat]

/-- A left shift is a product modulo `2^32`. -/
theorem shiftLeft_eq_ofNat (a : Word) (k : Nat) : a <<< k = BitVec.ofNat 32 (a.toNat * 2 ^ k) := by
  apply BitVec.eq_of_toNat_eq
  simp [Nat.shiftLeft_eq]

/-- A logical right shift is a quotient. -/
theorem ushiftRight_eq_ofNat (a : Word) (k : Nat) : a >>> k = BitVec.ofNat 32 (a.toNat / 2 ^ k) := by
  apply BitVec.eq_of_toNat_eq
  rw [BitVec.toNat_ushiftRight, BitVec.toNat_ofNat, Nat.shiftRight_eq_div_pow, Nat.mod_eq_of_lt]
  exact Nat.lt_of_le_of_lt (Nat.div_le_self _ _) a.isLt

/-- An arithmetic right shift is the floor of the signed quotient (R199, R218). -/
theorem sshiftRight_eq_ofInt (a : Word) (k : Nat) : a.sshiftRight k = BitVec.ofInt 32 (a.toInt / 2 ^ k) := by
  rw [BitVec.sshiftRight]
  congr 1
  rw [Int.shiftRight_eq_div_pow]
  push_cast
  rfl

end Machine

end Sys2Proof
end

