-- ==== Sys2Proof/Laws/Encoding.lean ====
section
/-! SUPPORT. Bit by bit, what the encoders and the decoder's immediates hold (R71, R80 to R87), and that the opcode
decides the kind (R73). -/

namespace Sys2Proof

/-- The opcode of a kind gives the kind back (R73). -/
theorem ofOpcode_opcode (k : Kind) : Kind.ofOpcode k.opcode = some k := by cases k <;> decide

/-- A kind is found only for its own opcode (R73). -/
theorem opcode_of_ofOpcode : ∀ (opc : BitVec 7) (k : Kind), Kind.ofOpcode opc = some k → k.opcode = opc := by
  intro opc k h
  have := List.find?_some h
  simpa using this

/-! ### The encoders -/

theorem encodeR_getLsbD (k : Kind) (f7 : BitVec 7) (rs2 rs1 : RegIdx) (f3 : BitVec 3) (rd : RegIdx) (i : Nat) :
    (encodeR k f7 rs2 rs1 f3 rd).getLsbD i =
      if i < 7 then k.opcode.getLsbD i else if i < 12 then rd.getLsbD (i - 7)
      else if i < 15 then f3.getLsbD (i - 12) else if i < 20 then rs1.getLsbD (i - 15)
      else if i < 25 then rs2.getLsbD (i - 20) else f7.getLsbD (i - 25) := by
  change BitVec.getLsbD (w := 7 + 5 + 5 + 3 + 5 + 7) (f7 ++ rs2 ++ rs1 ++ f3 ++ rd ++ k.opcode) i = _
  simp only [BitVec.getLsbD_append]
  repeat' split
  all_goals first | omega | rfl

theorem encodeI_getLsbD (k : Kind) (imm : Word) (rs1 : RegIdx) (f3 : BitVec 3) (rd : RegIdx) (i : Nat) (hi : i < 32) :
    (encodeI k imm rs1 f3 rd).getLsbD i =
      if i < 7 then k.opcode.getLsbD i else if i < 12 then rd.getLsbD (i - 7)
      else if i < 15 then f3.getLsbD (i - 12) else if i < 20 then rs1.getLsbD (i - 15) else imm.getLsbD (i - 20) := by
  change BitVec.getLsbD (w := 12 + 5 + 3 + 5 + 7) (imm.extractLsb' 0 12 ++ rs1 ++ f3 ++ rd ++ k.opcode) i = _
  simp only [BitVec.getLsbD_append, BitVec.getLsbD_extractLsb']
  interval_cases i <;> simp

theorem encodeS_getLsbD (imm : Word) (rs2 rs1 : RegIdx) (f3 : BitVec 3) (i : Nat) (hi : i < 32) :
    (encodeS imm rs2 rs1 f3).getLsbD i =
      if i < 7 then Kind.store.opcode.getLsbD i else if i < 12 then imm.getLsbD (i - 7)
      else if i < 15 then f3.getLsbD (i - 12) else if i < 20 then rs1.getLsbD (i - 15)
      else if i < 25 then rs2.getLsbD (i - 20) else imm.getLsbD (i - 20) := by
  change BitVec.getLsbD (w := 7 + 5 + 5 + 3 + 5 + 7)
    (imm.extractLsb' 5 7 ++ rs2 ++ rs1 ++ f3 ++ imm.extractLsb' 0 5 ++ Kind.store.opcode) i = _
  simp only [BitVec.getLsbD_append, BitVec.getLsbD_extractLsb']
  interval_cases i <;> simp

theorem encodeB_getLsbD (imm : Word) (rs2 rs1 : RegIdx) (f3 : BitVec 3) (i : Nat) (hi : i < 32) :
    (encodeB imm rs2 rs1 f3).getLsbD i =
      if i < 7 then Kind.branch.opcode.getLsbD i else if i < 8 then imm.getLsbD 11
      else if i < 12 then imm.getLsbD (i - 7) else if i < 15 then f3.getLsbD (i - 12)
      else if i < 20 then rs1.getLsbD (i - 15) else if i < 25 then rs2.getLsbD (i - 20)
      else if i < 31 then imm.getLsbD (i - 20) else imm.getLsbD 12 := by
  change BitVec.getLsbD (w := 1 + 6 + 5 + 5 + 3 + 4 + 1 + 7) (imm.extractLsb' 12 1 ++ imm.extractLsb' 5 6 ++ rs2 ++ rs1 ++
    f3 ++ imm.extractLsb' 1 4 ++ imm.extractLsb' 11 1 ++ Kind.branch.opcode) i = _
  simp only [BitVec.getLsbD_append, BitVec.getLsbD_extractLsb']
  interval_cases i <;> simp

theorem encodeU_getLsbD (k : Kind) (imm : Word) (rd : RegIdx) (i : Nat) (hi : i < 32) :
    (encodeU k imm rd).getLsbD i =
      if i < 7 then k.opcode.getLsbD i else if i < 12 then rd.getLsbD (i - 7) else imm.getLsbD i := by
  change BitVec.getLsbD (w := 20 + 5 + 7) (imm.extractLsb' 12 20 ++ rd ++ k.opcode) i = _
  simp only [BitVec.getLsbD_append, BitVec.getLsbD_extractLsb']
  interval_cases i <;> simp

theorem encodeJ_getLsbD (imm : Word) (rd : RegIdx) (i : Nat) (hi : i < 32) :
    (encodeJ imm rd).getLsbD i =
      if i < 7 then Kind.jal.opcode.getLsbD i else if i < 12 then rd.getLsbD (i - 7)
      else if i < 20 then imm.getLsbD i else if i < 21 then imm.getLsbD 11
      else if i < 31 then imm.getLsbD (i - 20) else imm.getLsbD 20 := by
  change BitVec.getLsbD (w := 1 + 10 + 1 + 8 + 5 + 7) (imm.extractLsb' 20 1 ++ imm.extractLsb' 1 10 ++
    imm.extractLsb' 11 1 ++ imm.extractLsb' 12 8 ++ rd ++ Kind.jal.opcode) i = _
  simp only [BitVec.getLsbD_append, BitVec.getLsbD_extractLsb']
  interval_cases i <;> simp

/-! ### The decoder's immediates -/

theorem field_getLsbD (w : Word) (hi lo i : Nat) (h : hi < 32) :
    (field w hi lo).getLsbD i = (decide (i < hi - lo + 1) && w.getLsbD (lo + i)) := by
  simp only [field, BitVec.getLsbD_setWidth, BitVec.getLsbD_extractLsb']
  by_cases hi' : i < 32
  · simp [hi']
  · have hn : ¬ i < hi - lo + 1 := by omega
    rw [decide_eq_false hi', decide_eq_false hn, Bool.false_and, Bool.false_and]

theorem immI_getLsbD (w : Word) (i : Nat) : (immI w).getLsbD i = (decide (i < 12) && w.getLsbD (20 + i)) :=
  field_getLsbD w 31 20 i (by omega)

theorem immU_getLsbD (w : Word) (i : Nat) (hi : i < 32) :
    (immU w).getLsbD i = (decide (12 ≤ i) && w.getLsbD i) := by
  simp only [immU, BitVec.getLsbD_shiftLeft, field_getLsbD w 31 12 _ (by omega)]
  interval_cases i <;> simp

theorem immS_getLsbD (w : Word) (i : Nat) (hi : i < 32) :
    (immS w).getLsbD i =
      if i < 5 then w.getLsbD (i + 7) else if i < 12 then w.getLsbD (i + 20) else false := by
  simp only [immS, BitVec.getLsbD_or, BitVec.getLsbD_shiftLeft, field_getLsbD w 31 25 _ (by omega),
    field_getLsbD w 11 7 _ (by omega)]
  interval_cases i <;> simp

theorem immB_getLsbD (w : Word) (i : Nat) (hi : i < 32) :
    (immB w).getLsbD i =
      if i < 1 then false else if i < 5 then w.getLsbD (i + 7) else if i < 11 then w.getLsbD (i + 20)
      else if i < 12 then w.getLsbD 7 else if i < 13 then w.getLsbD 31 else false := by
  simp only [immB, BitVec.getLsbD_or, BitVec.getLsbD_shiftLeft, field_getLsbD w 31 31 _ (by omega),
    field_getLsbD w 7 7 _ (by omega), field_getLsbD w 30 25 _ (by omega), field_getLsbD w 11 8 _ (by omega)]
  interval_cases i <;> simp

theorem immJ_getLsbD (w : Word) (i : Nat) (hi : i < 32) :
    (immJ w).getLsbD i =
      if i < 1 then false else if i < 11 then w.getLsbD (i + 20) else if i < 12 then w.getLsbD 20
      else if i < 20 then w.getLsbD i else if i < 21 then w.getLsbD 31 else false := by
  simp only [immJ, BitVec.getLsbD_or, BitVec.getLsbD_shiftLeft, field_getLsbD w 31 31 _ (by omega),
    field_getLsbD w 19 12 _ (by omega), field_getLsbD w 20 20 _ (by omega), field_getLsbD w 30 21 _ (by omega)]
  interval_cases i <;> simp

end Sys2Proof
end

