-- ==== Sys2Proof/Laws/Decode.lean ====
section
/-! SUPPORT. Decoding from what is known of a word's bits: a masked word's fields, the decoder once the kind is known, and
the immediates as the concatenations of R71's formats. -/

namespace Sys2Proof

/-- A field that a mask covers, read off the masked value. -/
theorem extract_of_and_eq (w m v : Word) (lo n : Nat) (h : w &&& m = v) (hm : m.extractLsb' lo n = BitVec.allOnes n) :
    w.extractLsb' lo n = v.extractLsb' lo n := by
  rw [← h, BitVec.extractLsb'_and, hm, BitVec.and_allOnes]

/-- A word whose opcode is that of a kind decodes by that kind's selection (R77, R90). -/
theorem decode_of_opcode (k : Kind) (w : Word) (h : opcodeField w = k.opcode) :
    decode w =
      match (Operand.ofKind k w).select with
      | none => .error .unsupportedFunct
      | some i => .ok i := by
  unfold decode decodeOperand
  rw [h, ofOpcode_opcode]
  rfl

/-- A word that decodes has the opcode of one of the kinds, and is what that kind's selection gives. -/
theorem decode_ok_cases (w : Word) (i : Instr) (h : decode w = .ok i) :
    ∃ k : Kind, opcodeField w = k.opcode ∧ (Operand.ofKind k w).select = some i := by
  unfold decode decodeOperand at h
  cases hk : Kind.ofOpcode (opcodeField w) with
  | none => rw [hk] at h; cases h
  | some k =>
    rw [hk] at h
    simp only [Option.map_some] at h
    refine ⟨k, (opcode_of_ofOpcode _ _ hk).symm, ?_⟩
    split at h
    · cases h
    · rename_i j hj
      rw [hj, Except.ok.inj h]

@[simp] theorem ofKind_kind (k : Kind) (w : Word) : (Operand.ofKind k w).kind = k := by cases k <;> rfl

/-! ### The immediates as concatenations -/

theorem immU_eq_append (w : Word) : immU w = w.extractLsb' 12 20 ++ 0#12 := by
  apply BitVec.eq_of_getLsbD_eq
  intro i hi
  rw [immU_getLsbD _ _ hi]
  change _ = BitVec.getLsbD (w := 20 + 12) _ i
  simp only [BitVec.getLsbD_append, BitVec.getLsbD_extractLsb']
  interval_cases i <;> simp

theorem immS_eq_append (w : Word) : immS w = 0#20 ++ w.extractLsb' 25 7 ++ w.extractLsb' 7 5 := by
  apply BitVec.eq_of_getLsbD_eq
  intro i hi
  rw [immS_getLsbD _ _ hi]
  change _ = BitVec.getLsbD (w := 20 + 7 + 5) _ i
  simp only [BitVec.getLsbD_append, BitVec.getLsbD_extractLsb']
  interval_cases i <;> simp

theorem immB_eq_append (w : Word) : immB w =
    0#19 ++ w.extractLsb' 31 1 ++ w.extractLsb' 7 1 ++ w.extractLsb' 25 6 ++ w.extractLsb' 8 4 ++ 0#1 := by
  apply BitVec.eq_of_getLsbD_eq
  intro i hi
  rw [immB_getLsbD _ _ hi]
  change _ = BitVec.getLsbD (w := 19 + 1 + 1 + 6 + 4 + 1) _ i
  simp only [BitVec.getLsbD_append, BitVec.getLsbD_extractLsb']
  interval_cases i <;> simp

theorem immJ_eq_append (w : Word) : immJ w =
    0#11 ++ w.extractLsb' 31 1 ++ w.extractLsb' 12 8 ++ w.extractLsb' 20 1 ++ w.extractLsb' 21 10 ++ 0#1 := by
  apply BitVec.eq_of_getLsbD_eq
  intro i hi
  rw [immJ_getLsbD _ _ hi]
  change _ = BitVec.getLsbD (w := 11 + 1 + 8 + 1 + 10 + 1) _ i
  simp only [BitVec.getLsbD_append, BitVec.getLsbD_extractLsb']
  interval_cases i <;> simp

/-- The shift amount of an immediate shift is `word[24:20]` (R89). -/
theorem shamt_of_immI (w : Word) : (immI w).extractLsb' 0 5 = rs2Field w := by
  apply BitVec.eq_of_getLsbD_eq
  intro i hi
  rw [BitVec.getLsbD_extractLsb', immI_getLsbD, rs2Field, BitVec.getLsbD_extractLsb']
  simp [hi, (by omega : i < 12)]

/-- A field of bits is zero when each of its bits is. -/
theorem extract_eq_zero (v : Word) (lo n : Nat) (h : ∀ i, lo ≤ i → i < lo + n → v.getLsbD i = false) :
    v.extractLsb' lo n = 0 := by
  apply BitVec.eq_of_getLsbD_eq
  intro i hi
  rw [BitVec.getLsbD_extractLsb', h (lo + i) (by omega) (by omega)]
  simp

theorem immU_fits (w : Word) : immFitsU (immU w) = true := by
  refine beq_iff_eq.mpr (extract_eq_zero _ 0 12 fun i _ h2 => ?_)
  rw [immU_getLsbD _ _ (by omega), decide_eq_false (by omega : ¬ 12 ≤ i), Bool.false_and]

theorem immI_fits (w : Word) : immFits12 (immI w) = true := by
  refine beq_iff_eq.mpr (extract_eq_zero _ 12 20 fun i h1 _ => ?_)
  rw [immI_getLsbD, decide_eq_false (by omega : ¬ i < 12), Bool.false_and]

theorem immS_fits (w : Word) : immFits12 (immS w) = true := by
  refine beq_iff_eq.mpr (extract_eq_zero _ 12 20 fun i h1 h2 => ?_)
  rw [immS_getLsbD _ _ (by omega), if_neg (by omega), if_neg (by omega)]

theorem immB_fits (w : Word) : immFitsB (immB w) = true := by
  refine Bool.and_eq_true_iff.mpr ⟨beq_iff_eq.mpr (extract_eq_zero _ 0 1 fun i _ h2 => ?_),
    beq_iff_eq.mpr (extract_eq_zero _ 13 19 fun i h1 h2 => ?_)⟩
  · rw [immB_getLsbD _ _ (by omega), if_pos (by omega)]
  · rw [immB_getLsbD _ _ (by omega), if_neg (by omega), if_neg (by omega), if_neg (by omega), if_neg (by omega),
      if_neg (by omega)]

theorem immJ_fits (w : Word) : immFitsJ (immJ w) = true := by
  refine Bool.and_eq_true_iff.mpr ⟨beq_iff_eq.mpr (extract_eq_zero _ 0 1 fun i _ h2 => ?_),
    beq_iff_eq.mpr (extract_eq_zero _ 21 11 fun i h1 h2 => ?_)⟩
  · rw [immJ_getLsbD _ _ (by omega), if_pos (by omega)]
  · rw [immJ_getLsbD _ _ (by omega), if_neg (by omega), if_neg (by omega), if_neg (by omega), if_neg (by omega),
      if_neg (by omega)]

end Sys2Proof
end

