-- ==== Sys2Proof/Laws/Memory.lean ====
section
/-! SUPPORT. The laws of memory: read after write, the canonical form and its uniqueness, and what `MemRead` and
`MemWrite` do (R40 to R47). -/

namespace Sys2Proof.Machine

/-! ### The list of cells -/

theorem lookupCell_eraseCell (a x : Nat) (cs : List Host.Cell) :
    lookupCell (eraseCell a cs) x = if x = a then Memory.unlisted else lookupCell cs x := by
  induction cs with
  | nil => simp [eraseCell, lookupCell]
  | cons c cs ih =>
    obtain ⟨k, d⟩ := c
    simp only [eraseCell, List.filter_cons] at ih ⊢
    by_cases hk : k = a
    · subst hk
      simp only [bne_self_eq_false, Bool.false_eq_true, if_false, ih, lookupCell]
      split <;> simp_all
    · simp only [bne_iff_ne, ne_eq, hk, not_false_eq_true, if_true, lookupCell, ih]
      split <;> split <;> simp_all

theorem lookupCell_placeCell (a x : Nat) (b : Byte) (cs : List Host.Cell) :
    lookupCell (placeCell a b cs) x = if x = a then b else lookupCell cs x := by
  induction cs with
  | nil => simp [placeCell, lookupCell]
  | cons c cs ih =>
    obtain ⟨k, d⟩ := c
    simp only [placeCell]
    split
    · simp [lookupCell]
    · split
      · rename_i _ h2
        subst h2
        simp only [lookupCell]
        split <;> rfl
      · simp only [lookupCell, ih]
        split <;> split <;> simp_all

/-- What any list reads as after a byte was put in. -/
theorem lookupCell_insertCell (a x : Nat) (b : Byte) (cs : List Host.Cell) :
    lookupCell (insertCell a b cs) x = if x = a then b else lookupCell cs x := by
  unfold insertCell
  split
  · rename_i hb
    rw [lookupCell_eraseCell, hb]
  · exact lookupCell_placeCell a x b cs

/-- The pieces of the canonical form of a list with a first entry. -/
theorem cellsCanonical_cons (size lo k : Nat) (b : Byte) (cs : List Host.Cell) :
    cellsCanonical size lo ((k, b) :: cs) = true ↔
      lo ≤ k ∧ k < size ∧ b ≠ Memory.unlisted ∧ cellsCanonical size (k + 1) cs = true := by
  simp [cellsCanonical, and_assoc]

theorem cellsCanonical_mono (size lo lo' : Nat) (cs : List Host.Cell) (h : cellsCanonical size lo cs = true)
    (hle : lo' ≤ lo) : cellsCanonical size lo' cs = true := by
  cases cs with
  | nil => rfl
  | cons c cs =>
    obtain ⟨k, d⟩ := c
    rw [cellsCanonical_cons] at h ⊢
    exact ⟨by omega, h.2⟩

theorem lookupCell_below (size lo a : Nat) (cs : List Host.Cell) (h : cellsCanonical size lo cs = true) (ha : a < lo) :
    lookupCell cs a = Memory.unlisted := by
  induction cs generalizing lo with
  | nil => rfl
  | cons c cs ih =>
    obtain ⟨k, b⟩ := c
    rw [cellsCanonical_cons] at h
    have hne : a ≠ k := by omega
    simp only [lookupCell, hne, if_false]
    exact ih (k + 1) h.2.2.2 (by omega)

theorem cellsCanonical_eraseCell (size lo a : Nat) (cs : List Host.Cell) (h : cellsCanonical size lo cs = true) :
    cellsCanonical size lo (eraseCell a cs) = true := by
  induction cs generalizing lo with
  | nil => rfl
  | cons c cs ih =>
    obtain ⟨k, d⟩ := c
    rw [cellsCanonical_cons] at h
    have htail := ih (k + 1) h.2.2.2
    simp only [eraseCell, List.filter_cons] at htail ⊢
    split
    · rw [cellsCanonical_cons]
      exact ⟨h.1, h.2.1, h.2.2.1, htail⟩
    · exact cellsCanonical_mono size (k + 1) lo _ htail (by omega)

theorem cellsCanonical_placeCell (size lo a : Nat) (b : Byte) (cs : List Host.Cell)
    (h : cellsCanonical size lo cs = true) (hlo : lo ≤ a) (ha : a < size) (hb : b ≠ Memory.unlisted) :
    cellsCanonical size lo (placeCell a b cs) = true := by
  induction cs generalizing lo with
  | nil => rw [placeCell, cellsCanonical_cons]; exact ⟨hlo, ha, hb, rfl⟩
  | cons c cs ih =>
    obtain ⟨k, d⟩ := c
    rw [cellsCanonical_cons] at h
    simp only [placeCell]
    split
    · rw [cellsCanonical_cons, cellsCanonical_cons]
      exact ⟨hlo, ha, hb, by omega, h.2⟩
    · split
      · rename_i _ h2
        subst h2
        rw [cellsCanonical_cons]
        exact ⟨hlo, ha, hb, h.2.2.2⟩
      · rw [cellsCanonical_cons]
        exact ⟨h.1, h.2.1, h.2.2.1, ih (k + 1) h.2.2.2 (by omega)⟩

/-- Two lists in canonical form that read the same everywhere are the same list. -/
theorem cells_eq_of_lookup_eq (size lo : Nat) (cs ds : List Host.Cell) (hc : cellsCanonical size lo cs = true)
    (hd : cellsCanonical size lo ds = true) (h : ∀ a, lookupCell cs a = lookupCell ds a) : cs = ds := by
  induction cs generalizing lo ds with
  | nil =>
    cases ds with
    | nil => rfl
    | cons d ds =>
      obtain ⟨k, b⟩ := d
      rw [cellsCanonical_cons] at hd
      have := h k
      simp [lookupCell] at this
      exact absurd this.symm hd.2.2.1
  | cons c cs ih =>
    obtain ⟨k, b⟩ := c
    cases ds with
    | nil =>
      rw [cellsCanonical_cons] at hc
      have := h k
      simp [lookupCell] at this
      exact absurd this hc.2.2.1
    | cons d ds =>
      obtain ⟨l, e⟩ := d
      have hc' := hc
      have hd' := hd
      rw [cellsCanonical_cons] at hc hd
      have hkl : k = l := by
        by_contra hne
        have hk := h k
        have hl := h l
        simp only [lookupCell, if_true] at hk hl
        rcases Nat.lt_or_gt_of_ne hne with hlt | hgt
        · rw [if_neg hne, lookupCell_below size (l + 1) k ds hd.2.2.2 (by omega)] at hk
          exact hc.2.2.1 hk
        · rw [if_neg (Ne.symm hne), lookupCell_below size (k + 1) l cs hc.2.2.2 (by omega)] at hl
          exact hd.2.2.1 hl.symm
      subst hkl
      have hb : b = e := by simpa [lookupCell] using h k
      subst hb
      congr 1
      apply ih (k + 1) ds hc.2.2.2 hd.2.2.2
      intro a
      by_cases ha : a = k
      · subst ha
        rw [lookupCell_below size (a + 1) a cs hc.2.2.2 (by omega), lookupCell_below size (a + 1) a ds hd.2.2.2 (by omega)]
      · simpa [lookupCell, ha] using h a

/-! ### One byte -/

variable (m : Memory) (a x : Nat) (b : Byte)

@[simp] theorem setByte_size : (m.setByte a b).size = m.size := by unfold Memory.setByte; split <;> rfl

/-- A write of one byte keeps the canonical form. -/
theorem setByte_wf (h : m.wf = true) : (m.setByte a b).wf = true := by
  unfold Memory.setByte
  split
  · rename_i ha
    unfold Memory.wf insertCell
    split
    · exact cellsCanonical_eraseCell m.size 0 a m.cells h
    · rename_i hb
      exact cellsCanonical_placeCell m.size 0 a b m.cells h (by omega) ha hb
  · exact h

/-- A byte written below `MEM_SIZE` reads back. -/
theorem byte_setByte_same (ha : a < m.size) : (m.setByte a b).byte a = b := by
  unfold Memory.setByte Memory.byte
  rw [if_pos ha, lookupCell_insertCell, if_pos rfl]

/-- Every other address reads as before. -/
theorem byte_setByte_other (h : x ≠ a) : (m.setByte a b).byte x = m.byte x := by
  unfold Memory.setByte Memory.byte
  split
  · rw [lookupCell_insertCell, if_neg h]
  · rfl

/-! ### Several bytes -/

variable (v : Word) (n : Nat)

@[simp] theorem writeLE_size : (m.writeLE a v n).size = m.size := by
  induction n with
  | zero => rfl
  | succ n ih => simp [Memory.writeLE, ih]

theorem writeLE_wf (h : m.wf = true) : (m.writeLE a v n).wf = true := by
  induction n with
  | zero => exact h
  | succ n ih => exact setByte_wf _ _ _ ih

/-- The stored bytes, the least significant at the lowest address (R41, R46). -/
theorem byte_writeLE_stored (k : Nat) (hk : k < n) (hr : a + n ≤ m.size) :
    (m.writeLE a v n).byte (a + k) = v.extractLsb' (8 * k) 8 := by
  induction n with
  | zero => omega
  | succ n ih =>
    rw [Memory.writeLE]
    by_cases h : k = n
    · subst h
      exact byte_setByte_same _ _ _ (by rw [writeLE_size]; omega)
    · rw [byte_setByte_other _ _ _ _ (by omega)]
      exact ih (by omega) (by omega)

/-- Every byte outside the stored ones reads as before (R46). -/
theorem byte_writeLE_other (hx : x < a ∨ a + n ≤ x) : (m.writeLE a v n).byte x = m.byte x := by
  induction n with
  | zero => rfl
  | succ n ih =>
    rw [Memory.writeLE, byte_setByte_other _ _ _ _ (by omega)]
    exact ih (by omega)

/-- Bit `8k + j` of a little-endian read is bit `j` of byte `k` (R41, R45). -/
theorem readLE_getLsbD (i : Nat) (hn : n ≤ 4) :
    (m.readLE a n).getLsbD i = (decide (i < 8 * n) && (m.byte (a + i / 8)).getLsbD (i % 8)) := by
  induction n with
  | zero => simp [Memory.readLE]
  | succ n ih =>
    rw [Memory.readLE, BitVec.getLsbD_or, ih (by omega), BitVec.getLsbD_shiftLeft, BitVec.getLsbD_setWidth]
    by_cases h1 : i < 8 * n
    · have h2 : i < 8 * (n + 1) := by omega
      simp [h1, h2]
    · by_cases h3 : i < 8 * (n + 1)
      · have hq : i / 8 = n := by omega
        have hr : i % 8 = i - 8 * n := by omega
        have hs : i - 8 * n < 32 := by omega
        have h32 : i < 32 := by omega
        simp [h1, h3, hq, hr, hs, h32]
      · have hz : (m.byte (a + n)).getLsbD (i - 8 * n) = false := BitVec.getLsbD_of_ge _ _ (by omega)
        simp [h1, h3, hz]

/-- A one-byte read. -/
theorem readLE_one : m.readLE a 1 = (m.byte a).setWidth 32 := by
  apply BitVec.eq_of_getLsbD_eq
  intro i hi
  rw [readLE_getLsbD _ _ _ _ (by omega), BitVec.getLsbD_setWidth]
  by_cases h : i < 8
  · simp [h, hi, Nat.div_eq_of_lt h, Nat.mod_eq_of_lt h]
  · have hz : (m.byte a).getLsbD i = false := BitVec.getLsbD_of_ge _ _ (by omega)
    simp [h, hz]

/-- A halfword read: the second byte above the first. -/
theorem readLE_two : m.readLE a 2 = (m.byte (a + 1) ++ m.byte a).setWidth 32 := by
  apply BitVec.eq_of_getLsbD_eq
  intro i hi
  rw [readLE_getLsbD _ _ _ _ (by omega), BitVec.getLsbD_setWidth, BitVec.getLsbD_append]
  by_cases h : i < 8
  · simp [h, hi, Nat.div_eq_of_lt h, Nat.mod_eq_of_lt h]; omega
  · by_cases h2 : i < 16
    · have hq : i / 8 = 1 := by omega
      have hr : i % 8 = i - 8 := by omega
      simp [h, h2, hi, hq, hr]
    · have hz : (m.byte (a + 1)).getLsbD (i - 8) = false := BitVec.getLsbD_of_ge _ _ (by omega)
      simp [h, h2, hz]

/-- A word read: the four bytes, the last the most significant. -/
theorem readLE_four : m.readLE a 4 = m.byte (a + 3) ++ m.byte (a + 2) ++ m.byte (a + 1) ++ m.byte a := by
  apply BitVec.eq_of_getLsbD_eq
  intro i hi
  rw [readLE_getLsbD _ _ _ _ (by omega)]
  change _ = BitVec.getLsbD (w := 8 + 8 + 8 + 8) _ i
  simp only [BitVec.getLsbD_append]
  have hl : decide (i < 8 * 4) = true := by simpa using hi
  rw [hl, Bool.true_and]
  have hd : i / 8 = 0 ∨ i / 8 = 1 ∨ i / 8 = 2 ∨ i / 8 = 3 := by omega
  rcases hd with h | h | h | h
  · rw [if_pos (by omega), h, Nat.mod_eq_of_lt (by omega), Nat.add_zero]
  · rw [if_neg (by omega), if_pos (by omega), h, (by omega : i % 8 = i - 8)]
  · rw [if_neg (by omega), if_neg (by omega), if_pos (by omega), h, (by omega : i % 8 = i - 8 - 8)]
  · rw [if_neg (by omega), if_neg (by omega), if_neg (by omega), h, (by omega : i % 8 = i - 8 - 8 - 8)]

/-! ### `MemRead` and `MemWrite` -/

variable (w : Word) (n' : Width)

theorem inRange_iff : m.inRange w n' = true ↔ w.toNat + n'.bytes ≤ m.size := by simp [Memory.inRange]

/-- Everything `MemRead` can answer (R45, R47). -/
theorem read_eq : m.read w n' =
    if w.toNat + n'.bytes ≤ m.size then .ok (m.readLE w.toNat n'.bytes) else .error .addressOutOfRange := by
  simp [Memory.read, Memory.inRange]

/-- Everything `MemWrite` can answer (R46, R47). -/
theorem write_eq : m.write w n' v =
    if w.toNat + n'.bytes ≤ m.size then .ok (m.writeLE w.toNat v n'.bytes) else .error .addressOutOfRange := by
  simp [Memory.write, Memory.inRange]

/-- A successful `MemWrite` keeps the canonical form. -/
theorem write_wf (m' : Memory) (h : m.wf = true) (hw : m.write w n' v = .ok m') : m'.wf = true := by
  rw [write_eq] at hw
  split at hw
  · cases hw; exact writeLE_wf _ _ _ _ h
  · cases hw

/-- The loader's memory is in canonical form. -/
theorem ofImage_wf (size : Nat) (image : List Host.Cell) : (Memory.ofImage size image).wf = true := by
  induction image with
  | nil => rfl
  | cons c cs ih => exact setByte_wf _ _ _ ih

theorem ofImage_size (size : Nat) (image : List Host.Cell) : (Memory.ofImage size image).size = size := by
  induction image with
  | nil => rfl
  | cons c cs ih => exact (setByte_size _ _ _).trans ih

/-- A byte the image gives, below `MEM_SIZE` (R32). -/
theorem byte_ofImage_listed (size : Nat) (image : List Host.Cell) (h : a < size)
    (hf : image.find? (fun c => c.1 == a) = some (a, b)) : (Memory.ofImage size image).byte a = b := by
  induction image with
  | nil => cases hf
  | cons c cs ih =>
    change ((Memory.ofImage size cs).setByte c.1 c.2).byte a = b
    rw [List.find?_cons] at hf
    split at hf
    · cases hf
      exact byte_setByte_same _ _ _ (by rw [ofImage_size]; exact h)
    · rename_i hc
      rw [byte_setByte_other _ _ _ _ (by rintro rfl; simp at hc)]
      exact ih hf

/-- A byte the image does not give is zero-filled (R32). -/
theorem byte_ofImage_unlisted (size : Nat) (image : List Host.Cell) (h : ∀ c ∈ image, c.1 ≠ a) :
    (Memory.ofImage size image).byte a = 0 := by
  induction image with
  | nil => rfl
  | cons c cs ih =>
    change ((Memory.ofImage size cs).setByte c.1 c.2).byte a = 0
    rw [byte_setByte_other _ _ _ _ (Ne.symm (h c (by simp)))]
    exact ih fun d hd => h d (by simp [hd])

/-- A stored word reads back (R41, R43). -/
theorem readLE_writeLE (h : a + 4 ≤ m.size) : (m.writeLE a v 4).readLE a 4 = v := by
  apply BitVec.eq_of_getLsbD_eq
  intro i hi
  rw [readLE_getLsbD _ _ _ _ (by omega), byte_writeLE_stored _ _ _ _ _ (by omega) h, BitVec.getLsbD_extractLsb']
  simp only [(by omega : 8 * (i / 8) + i % 8 = i)]
  simp [hi, Nat.mod_lt]

/-- Alignment as a remainder (R44). -/
theorem aligned_iff : aligned n' w = true ↔ w.toNat % n'.bytes = 0 := by
  cases n' with
  | byte => simp [aligned, Width.bytes, Nat.mod_one]
  | half =>
    simp only [aligned, Width.bytes, beq_iff_eq]
    rw [← BitVec.toNat_inj]
    simp
  | word =>
    simp only [aligned, Width.bytes, beq_iff_eq]
    rw [← BitVec.toNat_inj]
    simp

end Sys2Proof.Machine
end

