-- ==== Sys2Proof/Laws/State.lean ====
section
/-! SUPPORT. One lemma for each field of each update of the state, and the two laws of the register file (R20, R21). -/

namespace Sys2Proof.Machine

variable (s : State) (i r : RegIdx) (v t : Word) (m : Memory)

@[simp] theorem setPc_pc : (s.setPc t).pc = t := rfl
@[simp] theorem setPc_regs : (s.setPc t).regs = s.regs := rfl
@[simp] theorem setPc_mem : (s.setPc t).mem = s.mem := rfl
@[simp] theorem setPc_halted : (s.setPc t).halted = s.halted := rfl
@[simp] theorem setPc_reg : (s.setPc t).reg r = s.reg r := rfl

@[simp] theorem setMem_pc : (s.setMem m).pc = s.pc := rfl
@[simp] theorem setMem_regs : (s.setMem m).regs = s.regs := rfl
@[simp] theorem setMem_mem : (s.setMem m).mem = m := rfl
@[simp] theorem setMem_halted : (s.setMem m).halted = s.halted := rfl
@[simp] theorem setMem_reg : (s.setMem m).reg r = s.reg r := rfl
@[simp] theorem setMem_nextPc : (s.setMem m).nextPc = s.nextPc := rfl

@[simp] theorem setReg_pc : (s.setReg i v).pc = s.pc := by unfold State.setReg; split <;> rfl
@[simp] theorem setReg_mem : (s.setReg i v).mem = s.mem := by unfold State.setReg; split <;> rfl
@[simp] theorem setReg_halted : (s.setReg i v).halted = s.halted := by unfold State.setReg; split <;> rfl

@[simp] theorem nextPc_eq : s.nextPc = s.pc + 4 := rfl

/-- A read through a record update of the other fields reads the same register. -/
@[simp] theorem halted_update_reg (h : Option Word) : ({ s with halted := h } : State).reg r = s.reg r := rfl

/-- `x[0]` reads as 0 (R21). -/
@[simp] theorem reg_zero : s.reg 0 = 0 := rfl

/-- A write of `x[0]` changes nothing (R21). -/
@[simp] theorem setReg_zero : s.setReg 0 v = s := rfl

/-- A written register reads back (R20). -/
theorem reg_setReg_same (h : i ≠ 0) : (s.setReg i v).reg i = v := by
  unfold State.setReg State.reg
  rw [if_neg h, if_neg h]
  exact Vector.getElem_set_self _

/-- A write leaves every other register alone (R20). -/
theorem reg_setReg_other (h : r ≠ i) : (s.setReg i v).reg r = s.reg r := by
  unfold State.setReg
  split
  · rfl
  · rename_i hi
    unfold State.reg
    split
    · rfl
    · rename_i hr
      have hi' : i.toNat ≠ 0 := fun z => hi (BitVec.eq_of_toNat_eq z)
      have hr' : r.toNat ≠ 0 := fun z => hr (BitVec.eq_of_toNat_eq z)
      have hne : i.toNat - 1 ≠ r.toNat - 1 := fun e => h (BitVec.eq_of_toNat_eq (by omega))
      exact Vector.getElem_set_ne (by have := i.isLt; omega) (by have := r.isLt; omega) hne

/-- Every read after a write, in one equation. -/
theorem reg_setReg : (s.setReg i v).reg r = if r = i ∧ i ≠ 0 then v else s.reg r := by
  by_cases hr : r = i
  · subst hr
    by_cases hi : r = 0
    · subst hi; rfl
    · rw [reg_setReg_same s r v hi, if_pos ⟨rfl, hi⟩]
  · rw [reg_setReg_other s i r v hr, if_neg (fun h => hr h.1)]

end Sys2Proof.Machine
end

