-- ==== Sys2Proof/Laws/Exec.lean ====
section
/-! SUPPORT. What each shared operation answers, and what an instruction or a step can do, said once. -/

namespace Sys2Proof.Machine

variable (s t : State)

theorem SameMemory.refl : SameMemory s s := ⟨rfl, fun _ => rfl⟩

/-! ### The ends of a step -/

/-- `x[rd] <- v` and `pc <- p` change that register, `pc` and nothing else. -/
theorem setReg_setPc_writesReg (rd : RegIdx) (v p : Word) : WritesReg s ((s.setReg rd v).setPc p) rd v p where
  value h := reg_setReg_same s rd v h
  zero := rfl
  others r h := reg_setReg_other s rd r v h
  pc := rfl
  memory := ⟨by simp, fun a => by simp⟩
  halted := by simp

theorem writeRd_next (rd : RegIdx) (v : Word) :
    ∃ t, writeRd rd v s = .next t ∧ WritesReg s t rd v (s.pc + 4) :=
  ⟨_, rfl, setReg_setPc_writesReg s rd v _⟩

theorem linkAndJump_next (rd : RegIdx) (p : Word) :
    ∃ t, linkAndJump rd p s = .next t ∧ WritesReg s t rd (s.pc + 4) p :=
  ⟨_, rfl, setReg_setPc_writesReg s rd _ p⟩

/-- `pc <- p` changes `pc` and nothing else. -/
theorem setPc_writesPc (p : Word) : WritesPc s (s.setPc p) p :=
  ⟨fun _ => rfl, rfl, ⟨rfl, fun _ => rfl⟩, rfl⟩

theorem continueNext_next : ∃ t, continueNext s = .next t ∧ WritesPc s t (s.pc + 4) :=
  ⟨_, rfl, setPc_writesPc s _⟩

theorem branchIf_next (taken : Bool) (imm : Word) :
    ∃ t, branchIf taken imm s = .next t ∧ WritesPc s t (if taken then s.pc + branchOffset imm else s.pc + 4) := by
  cases taken
  · exact continueNext_next s
  · exact ⟨_, rfl, setPc_writesPc s _⟩

/-! ### Loads and stores -/

/-- Everything a load can answer: misaligned, out of range, or the extended value in `rd` (R160). -/
theorem loadOp_eq (n : Width) (ext : Word → Word) (rd rs1 : RegIdx) (imm a : Word) (ha : effAddr s rs1 imm = a) :
    loadOp n ext rd rs1 imm s =
      if a.toNat % n.bytes = 0 then
        if a.toNat + n.bytes ≤ s.mem.size then writeRd rd (ext (s.mem.readLE a.toNat n.bytes)) s
        else .fault (.raised .addressOutOfRange)
      else .fault (.raised .addressMisaligned) := by
  unfold loadOp raise
  rw [ha, read_eq]
  simp only [aligned_iff]
  by_cases hr : a.toNat + n.bytes ≤ s.mem.size
  · simp only [hr, if_true]
  · simp only [hr, if_false]

/-- Everything a store can answer (R180). -/
theorem storeOp_eq (n : Width) (rs1 rs2 : RegIdx) (imm a : Word) (ha : effAddr s rs1 imm = a) :
    storeOp n rs1 rs2 imm s =
      if a.toNat % n.bytes = 0 then
        if a.toNat + n.bytes ≤ s.mem.size then
          .next ((s.setMem (s.mem.writeLE a.toNat (s.reg rs2) n.bytes)).setPc (s.pc + 4))
        else .fault (.raised .addressOutOfRange)
      else .fault (.raised .addressMisaligned) := by
  unfold storeOp raise
  rw [ha, write_eq]
  simp only [aligned_iff]
  by_cases hr : a.toNat + n.bytes ≤ s.mem.size
  · simp only [hr, if_true]; rfl
  · simp only [hr, if_false]

/-- An aligned load in range completes. -/
theorem loadOp_next (n : Width) (ext : Word → Word) (rd rs1 : RegIdx) (imm a : Word) (ha : effAddr s rs1 imm = a)
    (hal : a.toNat % n.bytes = 0) (hr : a.toNat + n.bytes ≤ s.mem.size) :
    loadOp n ext rd rs1 imm s = writeRd rd (ext (s.mem.readLE a.toNat n.bytes)) s := by
  rw [loadOp_eq s n ext rd rs1 imm a ha, if_pos hal, if_pos hr]

/-- A misaligned load faults, in range or not (R48). -/
theorem loadOp_misaligned (n : Width) (ext : Word → Word) (rd rs1 : RegIdx) (imm a : Word)
    (ha : effAddr s rs1 imm = a) (hal : a.toNat % n.bytes ≠ 0) :
    loadOp n ext rd rs1 imm s = .fault (.raised .addressMisaligned) := by
  rw [loadOp_eq s n ext rd rs1 imm a ha, if_neg hal]

/-- An aligned load out of range faults (R47). -/
theorem loadOp_outOfRange (n : Width) (ext : Word → Word) (rd rs1 : RegIdx) (imm a : Word)
    (ha : effAddr s rs1 imm = a) (hal : a.toNat % n.bytes = 0) (hr : s.mem.size < a.toNat + n.bytes) :
    loadOp n ext rd rs1 imm s = .fault (.raised .addressOutOfRange) := by
  rw [loadOp_eq s n ext rd rs1 imm a ha, if_pos hal, if_neg (Nat.not_le.mpr hr)]

/-- An aligned store in range completes. -/
theorem storeOp_next (n : Width) (rs1 rs2 : RegIdx) (imm a : Word) (ha : effAddr s rs1 imm = a)
    (hal : a.toNat % n.bytes = 0) (hr : a.toNat + n.bytes ≤ s.mem.size) :
    storeOp n rs1 rs2 imm s =
      .next ((s.setMem (s.mem.writeLE a.toNat (s.reg rs2) n.bytes)).setPc (s.pc + 4)) := by
  rw [storeOp_eq s n rs1 rs2 imm a ha, if_pos hal, if_pos hr]

/-- A misaligned store faults, in range or not (R48). -/
theorem storeOp_misaligned (n : Width) (rs1 rs2 : RegIdx) (imm a : Word) (ha : effAddr s rs1 imm = a)
    (hal : a.toNat % n.bytes ≠ 0) : storeOp n rs1 rs2 imm s = .fault (.raised .addressMisaligned) := by
  rw [storeOp_eq s n rs1 rs2 imm a ha, if_neg hal]

/-- An aligned store out of range faults (R47). -/
theorem storeOp_outOfRange (n : Width) (rs1 rs2 : RegIdx) (imm a : Word) (ha : effAddr s rs1 imm = a)
    (hal : a.toNat % n.bytes = 0) (hr : s.mem.size < a.toNat + n.bytes) :
    storeOp n rs1 rs2 imm s = .fault (.raised .addressOutOfRange) := by
  rw [storeOp_eq s n rs1 rs2 imm a ha, if_pos hal, if_neg (Nat.not_le.mpr hr)]

/-- A store in range changes its bytes and `pc`, and nothing else. -/
theorem writeLE_writesMem (a v : Word) (n : Nat) (h : a.toNat + n ≤ s.mem.size) :
    WritesMem s ((s.setMem (s.mem.writeLE a.toNat v n)).setPc (s.pc + 4)) a n v where
  stored k hk := byte_writeLE_stored s.mem a.toNat v n k hk h
  others b hb := byte_writeLE_other s.mem a.toNat b v n hb
  size := writeLE_size _ _ _ _
  regs _ := rfl
  pc := rfl
  halted := rfl

/-! ### What an instruction can do -/

/-- A next state of a load writes its `rd`. -/
theorem loadOp_next_cases (n : Width) (ext : Word → Word) (rd rs1 : RegIdx) (imm : Word)
    (h : loadOp n ext rd rs1 imm s = .next t) : ∃ v, t = (s.setReg rd v).setPc (s.pc + 4) := by
  rw [loadOp_eq s n ext rd rs1 imm _ rfl] at h
  split at h
  · split at h
    · cases h; exact ⟨_, rfl⟩
    · cases h
  · cases h

/-- A next state of a store has written its bytes, in range. -/
theorem storeOp_next_cases (n : Width) (rs1 rs2 : RegIdx) (imm : Word) (h : storeOp n rs1 rs2 imm s = .next t) :
    (effAddr s rs1 imm).toNat + n.bytes ≤ s.mem.size ∧ (effAddr s rs1 imm).toNat % n.bytes = 0 ∧
      t = (s.setMem (s.mem.writeLE (effAddr s rs1 imm).toNat (s.reg rs2) n.bytes)).setPc (s.pc + 4) := by
  rw [storeOp_eq s n rs1 rs2 imm _ rfl] at h
  split at h
  · split at h
    · cases h; exact ⟨‹_›, ‹_›, rfl⟩
    · cases h
  · cases h

theorem branchIf_next_cases (taken : Bool) (imm : Word) (h : branchIf taken imm s = .next t) : ∃ p, t = s.setPc p := by
  cases taken <;> cases h <;> exact ⟨_, rfl⟩

/-- The next states of all instructions: a register and `pc`, or `pc` alone, or stored bytes and `pc`, or a halt. -/
theorem exec_next_cases (i : Instr) (h : exec i s = .next t) :
    (i.isStore = false ∧ ∃ rd v p, i.dest = some rd ∧ t = (s.setReg rd v).setPc p) ∨
    (i.isStore = false ∧ i.dest = none ∧ ∃ p, t = s.setPc p) ∨
    (i.isStore = true ∧ i.dest = none ∧ ∃ a v n, t = (s.setMem (s.mem.writeLE a v n)).setPc (s.pc + 4)) ∨
    (i.isStore = false ∧ i.dest = none ∧ t = { s with halted := some (s.reg 10) }) := by
  cases i with
  | lui | auipc | jal | jalr | addi | slti | sltiu | xori | ori | andi | slli | srli | srai | add | sub | sll | slt
  | sltu | xor | srl | sra | or | and => cases h; exact .inl ⟨rfl, _, _, _, rfl, rfl⟩
  | beq | bne | blt | bge | bltu | bgeu => exact .inr (.inl ⟨rfl, rfl, branchIf_next_cases s t _ _ h⟩)
  | lb | lh | lw | lbu | lhu =>
    simp only [exec, execLb, execLh, execLw, execLbu, execLhu] at h
    obtain ⟨v, hv⟩ := loadOp_next_cases s t _ _ _ _ _ h
    exact .inl ⟨rfl, _, v, _, rfl, hv⟩
  | sb | sh | sw =>
    simp only [exec, execSb, execSh, execSw] at h
    exact .inr (.inr (.inl ⟨rfl, rfl, _, _, _, (storeOp_next_cases s t _ _ _ _ h).2.2⟩))
  | fence | sysNopF1 | sysNopF2 | sysNopF3 | sysNopF4 | sysNopF5 | sysNopF6 | sysNopF7 | sysNopB0 | sysNopB1
  | sysNopB2 | sysNopB3 | sysNopB4 | sysNopB5 | sysNopB6 => cases h; exact .inr (.inl ⟨rfl, rfl, _, rfl⟩)
  | ecall => cases h; exact .inr (.inr (.inr ⟨rfl, rfl, rfl⟩))

/-! ### What a step can do -/

/-- Everything the fetch can answer (R247). -/
theorem fetch_eq : fetch s =
    if s.pc.toNat + 4 ≤ s.mem.size then
      if s.pc.toNat % 4 = 0 then .ok (wordAtPc s) else .error (.raised .addressMisaligned)
    else .error .pcOutOfRange := by
  have hr : s.mem.inRange s.pc .word = true ↔ s.pc.toNat + 4 ≤ s.mem.size := inRange_iff s.mem s.pc .word
  have ha : aligned .word s.pc = true ↔ s.pc.toNat % 4 = 0 := aligned_iff s.pc .word
  unfold fetch
  by_cases h : s.pc.toNat + 4 ≤ s.mem.size
  · rw [if_pos (hr.2 h), if_pos h]
    by_cases h2 : s.pc.toNat % 4 = 0
    · have hread : s.mem.read s.pc .word = .ok (wordAtPc s) :=
        (read_eq s.mem s.pc .word).trans ((if_pos h).trans (congrArg _ (readLE_four _ _)))
      rw [if_pos (ha.2 h2), if_pos h2, hread]
      rfl
    · rw [if_neg (fun x => h2 (ha.1 x)), if_neg h2]
  · rw [if_neg (fun x => h (hr.1 x)), if_neg h]

theorem runEnded_eq_false (h : s.halted = none) : s.runEnded = false := by simp [State.runEnded, h]

/-- A step of a run that has not ended, by what the fetch and the decoder answer (R248). -/
theorem step_eq (h : s.halted = none) : step s =
    match fetch s with
    | .error f => .fault f
    | .ok w =>
      match decode w with
      | .error .unsupportedOpcode => .fault (.raised .unsupportedOpcode)
      | .error .unsupportedFunct => .fault (.raised .unsupportedFunct)
      | .ok i => exec i s := by
  unfold step
  rw [runEnded_eq_false s h]
  simp only [Bool.false_eq_true, if_false]
  cases fetch s with
  | error f => rfl
  | ok w =>
    simp only [decode]
    cases decodeOperand w with
    | none => rfl
    | some o =>
      simp only [execute]
      cases o.select <;> rfl

/-- A next state of a step: the final state again, or that of the decoded instruction. -/
theorem step_next_cases (h : step s = .next t) :
    (s.halted ≠ none ∧ t = s) ∨
    (s.halted = none ∧ ∃ w i, fetch s = .ok w ∧ decode w = .ok i ∧ exec i s = .next t) := by
  by_cases hh : s.halted = none
  · rw [step_eq s hh] at h
    right
    refine ⟨hh, ?_⟩
    split at h
    · cases h
    · rename_i w hw
      split at h
      · cases h
      · cases h
      · rename_i i hi
        exact ⟨w, i, hw, hi, h⟩
  · left
    have he : s.runEnded = true := by
      unfold State.runEnded
      cases hx : s.halted with
      | none => exact absurd hx hh
      | some v => rfl
    unfold step at h
    rw [if_pos he] at h
    exact ⟨hh, by cases h; rfl⟩

end Sys2Proof.Machine
end

