-- ==== Sys2Proof/Laws/PerInstr.lean ====
section
/-! SUPPORT. The family `EncodedRow`: the word of a well-formed instruction is of the instruction's own row of the opcode
table (R90), one lemma for each constructor. -/

namespace Sys2Proof.Laws.EncodedRow

/-- `encode i & mask = match` for the row of `i`. -/
def Statement (i : Instr) : Prop := i.wf = true → i.row.admits (encode i) = true

/-! ### What a mask leaves of each format -/

theorem encodeR_f7_f3 (k : Kind) (f7 : BitVec 7) (rs2 rs1 : RegIdx) (f3 : BitVec 3) (rd : RegIdx) :
    encodeR k f7 rs2 rs1 f3 rd &&& 0xFE00707F = encodeR k f7 0 0 f3 0 := by
  apply BitVec.eq_of_getLsbD_eq
  intro i hi
  rw [BitVec.getLsbD_and, encodeR_getLsbD, encodeR_getLsbD]
  interval_cases i <;> simp

theorem encodeR_f3 (k : Kind) (f7 : BitVec 7) (rs2 rs1 : RegIdx) (f3 : BitVec 3) (rd : RegIdx) :
    encodeR k f7 rs2 rs1 f3 rd &&& 0x0000707F = encodeR k 0 0 0 f3 0 := by
  apply BitVec.eq_of_getLsbD_eq
  intro i hi
  rw [BitVec.getLsbD_and, encodeR_getLsbD, encodeR_getLsbD]
  interval_cases i <;> simp

theorem encodeR_opcode (k : Kind) (f7 : BitVec 7) (rs2 rs1 : RegIdx) (f3 : BitVec 3) (rd : RegIdx) :
    encodeR k f7 rs2 rs1 f3 rd &&& 0x0000007F = encodeR k 0 0 0 0 0 := by
  apply BitVec.eq_of_getLsbD_eq
  intro i hi
  rw [BitVec.getLsbD_and, encodeR_getLsbD, encodeR_getLsbD]
  interval_cases i <;> simp

theorem encodeI_f3 (k : Kind) (imm : Word) (rs1 : RegIdx) (f3 : BitVec 3) (rd : RegIdx) :
    encodeI k imm rs1 f3 rd &&& 0x0000707F = encodeR k 0 0 0 f3 0 := by
  apply BitVec.eq_of_getLsbD_eq
  intro i hi
  rw [BitVec.getLsbD_and, encodeI_getLsbD _ _ _ _ _ _ hi, encodeR_getLsbD]
  interval_cases i <;> simp

theorem encodeI_opcode (k : Kind) (imm : Word) (rs1 : RegIdx) (f3 : BitVec 3) (rd : RegIdx) :
    encodeI k imm rs1 f3 rd &&& 0x0000007F = encodeR k 0 0 0 0 0 := by
  apply BitVec.eq_of_getLsbD_eq
  intro i hi
  rw [BitVec.getLsbD_and, encodeI_getLsbD _ _ _ _ _ _ hi, encodeR_getLsbD]
  interval_cases i <;> simp

theorem encodeS_f3 (imm : Word) (rs2 rs1 : RegIdx) (f3 : BitVec 3) :
    encodeS imm rs2 rs1 f3 &&& 0x0000707F = encodeR .store 0 0 0 f3 0 := by
  apply BitVec.eq_of_getLsbD_eq
  intro i hi
  rw [BitVec.getLsbD_and, encodeS_getLsbD _ _ _ _ _ hi, encodeR_getLsbD]
  interval_cases i <;> simp

theorem encodeB_f3 (imm : Word) (rs2 rs1 : RegIdx) (f3 : BitVec 3) :
    encodeB imm rs2 rs1 f3 &&& 0x0000707F = encodeR .branch 0 0 0 f3 0 := by
  apply BitVec.eq_of_getLsbD_eq
  intro i hi
  rw [BitVec.getLsbD_and, encodeB_getLsbD _ _ _ _ _ hi, encodeR_getLsbD]
  interval_cases i <;> simp

theorem encodeU_opcode (k : Kind) (imm : Word) (rd : RegIdx) :
    encodeU k imm rd &&& 0x0000007F = encodeR k 0 0 0 0 0 := by
  apply BitVec.eq_of_getLsbD_eq
  intro i hi
  rw [BitVec.getLsbD_and, encodeU_getLsbD _ _ _ _ hi, encodeR_getLsbD]
  interval_cases i <;> simp

theorem encodeJ_opcode (imm : Word) (rd : RegIdx) :
    encodeJ imm rd &&& 0x0000007F = encodeR .jal 0 0 0 0 0 := by
  apply BitVec.eq_of_getLsbD_eq
  intro i hi
  rw [BitVec.getLsbD_and, encodeJ_getLsbD _ _ _ hi, encodeR_getLsbD]
  interval_cases i <;> simp

/-- A mask inside `0xFE00707F` sees nothing of the registers. -/
theorem encodeSystem_masked (f7 : BitVec 7) (rs1 : RegIdx) (f3 : BitVec 3) (rd : RegIdx) (m : Word)
    (hm : 0xFE00707F &&& m = m) : encodeSystem f7 rs1 f3 rd &&& m = encodeSystem f7 0 f3 0 &&& m := by
  have h := encodeR_f7_f3 .system f7 0 rs1 f3 rd
  have h0 := encodeR_f7_f3 .system f7 0 0 f3 0
  unfold encodeSystem
  rw [← hm, ← BitVec.and_assoc, ← BitVec.and_assoc, h, h0]

/-- The rows for the lowest set bit of `funct7`, with the registers at zero. -/
theorem lowestSetBit_row (f7 : BitVec 7) :
    (lowestSetBit 0 f7 = true → encodeSystem f7 0 0 0 &&& 0x0200707F = 0x02000073) ∧
    (lowestSetBit 1 f7 = true → encodeSystem f7 0 0 0 &&& 0x0600707F = 0x04000073) ∧
    (lowestSetBit 2 f7 = true → encodeSystem f7 0 0 0 &&& 0x0E00707F = 0x08000073) ∧
    (lowestSetBit 3 f7 = true → encodeSystem f7 0 0 0 &&& 0x1E00707F = 0x10000073) ∧
    (lowestSetBit 4 f7 = true → encodeSystem f7 0 0 0 &&& 0x3E00707F = 0x20000073) ∧
    (lowestSetBit 5 f7 = true → encodeSystem f7 0 0 0 &&& 0x7E00707F = 0x40000073) ∧
    (lowestSetBit 6 f7 = true → encodeSystem f7 0 0 0 &&& 0xFE00707F = 0x80000073) := by
  revert f7
  decide +kernel

/-! ### One lemma for each constructor -/

theorem lui (rd : RegIdx) (imm : Word) : Statement (.lui rd imm) := fun _ =>
  beq_iff_eq.mpr ((encodeU_opcode _ _ _).trans rfl)

theorem auipc (rd : RegIdx) (imm : Word) : Statement (.auipc rd imm) := fun _ =>
  beq_iff_eq.mpr ((encodeU_opcode _ _ _).trans rfl)

theorem jal (rd : RegIdx) (imm : Word) : Statement (.jal rd imm) := fun _ =>
  beq_iff_eq.mpr ((encodeJ_opcode _ _).trans rfl)

theorem jalr (rd : RegIdx) (funct3 : BitVec 3) (rs1 : RegIdx) (imm : Word) : Statement (.jalr rd funct3 rs1 imm) := fun _ =>
  beq_iff_eq.mpr ((encodeI_opcode _ _ _ _ _).trans rfl)

theorem beq (rs1 rs2 : RegIdx) (imm : Word) : Statement (.beq rs1 rs2 imm) := fun _ =>
  beq_iff_eq.mpr ((encodeB_f3 _ _ _ _).trans rfl)

theorem bne (rs1 rs2 : RegIdx) (imm : Word) : Statement (.bne rs1 rs2 imm) := fun _ =>
  beq_iff_eq.mpr ((encodeB_f3 _ _ _ _).trans rfl)

theorem blt (rs1 rs2 : RegIdx) (imm : Word) : Statement (.blt rs1 rs2 imm) := fun _ =>
  beq_iff_eq.mpr ((encodeB_f3 _ _ _ _).trans rfl)

theorem bge (rs1 rs2 : RegIdx) (imm : Word) : Statement (.bge rs1 rs2 imm) := fun _ =>
  beq_iff_eq.mpr ((encodeB_f3 _ _ _ _).trans rfl)

theorem bltu (rs1 rs2 : RegIdx) (imm : Word) : Statement (.bltu rs1 rs2 imm) := fun _ =>
  beq_iff_eq.mpr ((encodeB_f3 _ _ _ _).trans rfl)

theorem bgeu (rs1 rs2 : RegIdx) (imm : Word) : Statement (.bgeu rs1 rs2 imm) := fun _ =>
  beq_iff_eq.mpr ((encodeB_f3 _ _ _ _).trans rfl)

theorem lb (rd rs1 : RegIdx) (imm : Word) : Statement (.lb rd rs1 imm) := fun _ =>
  beq_iff_eq.mpr ((encodeI_f3 _ _ _ _ _).trans rfl)

theorem lh (rd rs1 : RegIdx) (imm : Word) : Statement (.lh rd rs1 imm) := fun _ =>
  beq_iff_eq.mpr ((encodeI_f3 _ _ _ _ _).trans rfl)

theorem lw (rd rs1 : RegIdx) (imm : Word) : Statement (.lw rd rs1 imm) := fun _ =>
  beq_iff_eq.mpr ((encodeI_f3 _ _ _ _ _).trans rfl)

theorem lbu (rd rs1 : RegIdx) (imm : Word) : Statement (.lbu rd rs1 imm) := fun _ =>
  beq_iff_eq.mpr ((encodeI_f3 _ _ _ _ _).trans rfl)

theorem lhu (rd rs1 : RegIdx) (imm : Word) : Statement (.lhu rd rs1 imm) := fun _ =>
  beq_iff_eq.mpr ((encodeI_f3 _ _ _ _ _).trans rfl)

theorem sb (rs1 rs2 : RegIdx) (imm : Word) : Statement (.sb rs1 rs2 imm) := fun _ =>
  beq_iff_eq.mpr ((encodeS_f3 _ _ _ _).trans rfl)

theorem sh (rs1 rs2 : RegIdx) (imm : Word) : Statement (.sh rs1 rs2 imm) := fun _ =>
  beq_iff_eq.mpr ((encodeS_f3 _ _ _ _).trans rfl)

theorem sw (rs1 rs2 : RegIdx) (imm : Word) : Statement (.sw rs1 rs2 imm) := fun _ =>
  beq_iff_eq.mpr ((encodeS_f3 _ _ _ _).trans rfl)

theorem addi (rd rs1 : RegIdx) (imm : Word) : Statement (.addi rd rs1 imm) := fun _ =>
  beq_iff_eq.mpr ((encodeI_f3 _ _ _ _ _).trans rfl)

theorem slti (rd rs1 : RegIdx) (imm : Word) : Statement (.slti rd rs1 imm) := fun _ =>
  beq_iff_eq.mpr ((encodeI_f3 _ _ _ _ _).trans rfl)

theorem sltiu (rd rs1 : RegIdx) (imm : Word) : Statement (.sltiu rd rs1 imm) := fun _ =>
  beq_iff_eq.mpr ((encodeI_f3 _ _ _ _ _).trans rfl)

theorem xori (rd rs1 : RegIdx) (imm : Word) : Statement (.xori rd rs1 imm) := fun _ =>
  beq_iff_eq.mpr ((encodeI_f3 _ _ _ _ _).trans rfl)

theorem ori (rd rs1 : RegIdx) (imm : Word) : Statement (.ori rd rs1 imm) := fun _ =>
  beq_iff_eq.mpr ((encodeI_f3 _ _ _ _ _).trans rfl)

theorem andi (rd rs1 : RegIdx) (imm : Word) : Statement (.andi rd rs1 imm) := fun _ =>
  beq_iff_eq.mpr ((encodeI_f3 _ _ _ _ _).trans rfl)

theorem slli (rd rs1 : RegIdx) (funct7 : BitVec 7) (shamt : BitVec 5) : Statement (.slli rd rs1 funct7 shamt) := fun _ =>
  beq_iff_eq.mpr ((encodeR_f3 _ _ _ _ _ _).trans rfl)

theorem srli (rd rs1 : RegIdx) (shamt : BitVec 5) : Statement (.srli rd rs1 shamt) := fun _ =>
  beq_iff_eq.mpr ((encodeR_f7_f3 _ _ _ _ _ _).trans rfl)

theorem srai (rd rs1 : RegIdx) (shamt : BitVec 5) : Statement (.srai rd rs1 shamt) := fun _ =>
  beq_iff_eq.mpr ((encodeR_f7_f3 _ _ _ _ _ _).trans rfl)

theorem add (rd rs1 rs2 : RegIdx) : Statement (.add rd rs1 rs2) := fun _ =>
  beq_iff_eq.mpr ((encodeR_f7_f3 _ _ _ _ _ _).trans rfl)

theorem sub (rd rs1 rs2 : RegIdx) : Statement (.sub rd rs1 rs2) := fun _ =>
  beq_iff_eq.mpr ((encodeR_f7_f3 _ _ _ _ _ _).trans rfl)

theorem sll (rd rs1 rs2 : RegIdx) : Statement (.sll rd rs1 rs2) := fun _ =>
  beq_iff_eq.mpr ((encodeR_f7_f3 _ _ _ _ _ _).trans rfl)

theorem slt (rd rs1 rs2 : RegIdx) : Statement (.slt rd rs1 rs2) := fun _ =>
  beq_iff_eq.mpr ((encodeR_f7_f3 _ _ _ _ _ _).trans rfl)

theorem sltu (rd rs1 rs2 : RegIdx) : Statement (.sltu rd rs1 rs2) := fun _ =>
  beq_iff_eq.mpr ((encodeR_f7_f3 _ _ _ _ _ _).trans rfl)

theorem xor (rd rs1 rs2 : RegIdx) : Statement (.xor rd rs1 rs2) := fun _ =>
  beq_iff_eq.mpr ((encodeR_f7_f3 _ _ _ _ _ _).trans rfl)

theorem srl (rd rs1 rs2 : RegIdx) : Statement (.srl rd rs1 rs2) := fun _ =>
  beq_iff_eq.mpr ((encodeR_f7_f3 _ _ _ _ _ _).trans rfl)

theorem sra (rd rs1 rs2 : RegIdx) : Statement (.sra rd rs1 rs2) := fun _ =>
  beq_iff_eq.mpr ((encodeR_f7_f3 _ _ _ _ _ _).trans rfl)

theorem or (rd rs1 rs2 : RegIdx) : Statement (.or rd rs1 rs2) := fun _ =>
  beq_iff_eq.mpr ((encodeR_f7_f3 _ _ _ _ _ _).trans rfl)

theorem and (rd rs1 rs2 : RegIdx) : Statement (.and rd rs1 rs2) := fun _ =>
  beq_iff_eq.mpr ((encodeR_f7_f3 _ _ _ _ _ _).trans rfl)

theorem fence (rd : RegIdx) (funct3 : BitVec 3) (rs1 : RegIdx) : Statement (.fence rd funct3 rs1) := fun _ =>
  beq_iff_eq.mpr ((encodeR_opcode _ _ _ _ _ _).trans rfl)

theorem ecall (rd rs1 : RegIdx) : Statement (.ecall rd rs1) := fun _ =>
  beq_iff_eq.mpr ((encodeR_f7_f3 _ _ _ _ _ _).trans rfl)

theorem sysNopF1 (funct7 : BitVec 7) (rd rs1 : RegIdx) : Statement (.sysNopF1 funct7 rd rs1) := fun _ =>
  beq_iff_eq.mpr ((encodeR_f3 _ _ _ _ _ _).trans rfl)

theorem sysNopF2 (funct7 : BitVec 7) (rd rs1 : RegIdx) : Statement (.sysNopF2 funct7 rd rs1) := fun _ =>
  beq_iff_eq.mpr ((encodeR_f3 _ _ _ _ _ _).trans rfl)

theorem sysNopF3 (funct7 : BitVec 7) (rd rs1 : RegIdx) : Statement (.sysNopF3 funct7 rd rs1) := fun _ =>
  beq_iff_eq.mpr ((encodeR_f3 _ _ _ _ _ _).trans rfl)

theorem sysNopF4 (funct7 : BitVec 7) (rd rs1 : RegIdx) : Statement (.sysNopF4 funct7 rd rs1) := fun _ =>
  beq_iff_eq.mpr ((encodeR_f3 _ _ _ _ _ _).trans rfl)

theorem sysNopF5 (funct7 : BitVec 7) (rd rs1 : RegIdx) : Statement (.sysNopF5 funct7 rd rs1) := fun _ =>
  beq_iff_eq.mpr ((encodeR_f3 _ _ _ _ _ _).trans rfl)

theorem sysNopF6 (funct7 : BitVec 7) (rd rs1 : RegIdx) : Statement (.sysNopF6 funct7 rd rs1) := fun _ =>
  beq_iff_eq.mpr ((encodeR_f3 _ _ _ _ _ _).trans rfl)

theorem sysNopF7 (funct7 : BitVec 7) (rd rs1 : RegIdx) : Statement (.sysNopF7 funct7 rd rs1) := fun _ =>
  beq_iff_eq.mpr ((encodeR_f3 _ _ _ _ _ _).trans rfl)

theorem sysNopB0 (funct7 : BitVec 7) (rd rs1 : RegIdx) : Statement (.sysNopB0 funct7 rd rs1) := fun h =>
  beq_iff_eq.mpr ((encodeSystem_masked funct7 rs1 0 rd 0x0200707F (by decide)).trans ((lowestSetBit_row funct7).1 h))

theorem sysNopB1 (funct7 : BitVec 7) (rd rs1 : RegIdx) : Statement (.sysNopB1 funct7 rd rs1) := fun h =>
  beq_iff_eq.mpr ((encodeSystem_masked funct7 rs1 0 rd 0x0600707F (by decide)).trans ((lowestSetBit_row funct7).2.1 h))

theorem sysNopB2 (funct7 : BitVec 7) (rd rs1 : RegIdx) : Statement (.sysNopB2 funct7 rd rs1) := fun h =>
  beq_iff_eq.mpr ((encodeSystem_masked funct7 rs1 0 rd 0x0E00707F (by decide)).trans ((lowestSetBit_row funct7).2.2.1 h))

theorem sysNopB3 (funct7 : BitVec 7) (rd rs1 : RegIdx) : Statement (.sysNopB3 funct7 rd rs1) := fun h =>
  beq_iff_eq.mpr ((encodeSystem_masked funct7 rs1 0 rd 0x1E00707F (by decide)).trans ((lowestSetBit_row funct7).2.2.2.1 h))

theorem sysNopB4 (funct7 : BitVec 7) (rd rs1 : RegIdx) : Statement (.sysNopB4 funct7 rd rs1) := fun h =>
  beq_iff_eq.mpr ((encodeSystem_masked funct7 rs1 0 rd 0x3E00707F (by decide)).trans ((lowestSetBit_row funct7).2.2.2.2.1 h))

theorem sysNopB5 (funct7 : BitVec 7) (rd rs1 : RegIdx) : Statement (.sysNopB5 funct7 rd rs1) := fun h =>
  beq_iff_eq.mpr ((encodeSystem_masked funct7 rs1 0 rd 0x7E00707F (by decide)).trans ((lowestSetBit_row funct7).2.2.2.2.2.1 h))

theorem sysNopB6 (funct7 : BitVec 7) (rd rs1 : RegIdx) : Statement (.sysNopB6 funct7 rd rs1) := fun h =>
  beq_iff_eq.mpr ((encodeSystem_masked funct7 rs1 0 rd 0xFE00707F (by decide)).trans ((lowestSetBit_row funct7).2.2.2.2.2.2 h))

end Sys2Proof.Laws.EncodedRow
end

