-- ==== Sys2Proof/Tests/Slice0.lean ====
section
/-! SUPPORT. The model's own tests: the checks of well-formedness refuse what they should, words written out from the spec
decode to their instructions, single steps give what the vectors of spec/95_test_vectors.md say (the vector's name stands
in the docstring), and for each statement with hypotheses a concrete state and operands that meet them. -/

namespace Sys2Proof.Tests

open Sys2Proof.Machine

/-! ### Helpers -/

/-- The initial state of a vector: `MEM_SIZE = 0x4000`, the listed registers and bytes, all else 0 (spec/95). -/
def start (pc : Word) (rs : List (RegIdx × Word)) (cells : List Host.Cell) : State :=
  rs.foldl (fun s r => s.setReg r.1 r.2)
    (State.resetWith { memSize := 0x4000, entryPc := pc, initSp := 0, image := cells })

/-- One step from that state with the word stored at `pc`. -/
def run (pc : Word) (rs : List (RegIdx × Word)) (cells : List Host.Cell) (w : Nat) : Result :=
  step ((start pc rs cells).withFetchWord 32 w)

/-- A register and `pc` after the step. -/
def regPc (r : RegIdx) : Result → Option (Word × Word)
  | .next t => some (t.reg r, t.pc)
  | .fault _ => none
  | .refused _ => none

/-- `pc` and the recorded halt after the step. -/
def pcHalt : Result → Option (Word × Option Word)
  | .next t => some (t.pc, t.halted)
  | .fault _ => none
  | .refused _ => none

/-- The `n` bytes from an address on after the step, and `pc`. -/
def bytesPc (a n : Nat) : Result → Option (List Byte × Word)
  | .next t => some ((List.range n).map fun k => t.mem.byte (a + k), t.pc)
  | .fault _ => none
  | .refused _ => none

/-- The fault of the step. -/
def faultOf : Result → Option Fault
  | .next _ => none
  | .fault f => some f
  | .refused _ => none

/-- The load vectors' bytes at 0x1000. -/
def loadBytes : List Host.Cell :=
  [(0x1000, 0x80), (0x1001, 0xFF), (0x1002, 0x7F), (0x1003, 0x01),
   (0x1004, 0xEF), (0x1005, 0xCD), (0x1006, 0xAB), (0x1007, 0x89)]

/-- The store vectors' bytes at 0x1000. -/
def storeBytes : List Host.Cell :=
  [(0x1000, 0x11), (0x1001, 0x11), (0x1002, 0x11), (0x1003, 0x11),
   (0x1004, 0x11), (0x1005, 0x11), (0x1006, 0x11), (0x1007, 0x11)]

/-- The word is one of the row `mask`, `value` and decodes to the instruction. -/
abbrev DecodesTo (mask value w : Word) (i : Instr) : Prop := w &&& mask = value ∧ decode w = .ok i

/-! ### Well-formedness: each check refuses an ill-formed term -/

theorem test_wf_refuses_upper : (Instr.lui 1 0x00000800).wf = false ∧ (Instr.auipc 1 0x00000001).wf = false := by decide
theorem test_wf_refuses_jal : (Instr.jal 1 0x00000001).wf = false ∧ (Instr.jal 1 0x00200000).wf = false := by decide
theorem test_wf_refuses_jalr : (Instr.jalr 1 0 1 0x00001000).wf = false := by decide
theorem test_wf_refuses_branches :
    ∀ i ∈ ([.beq 1 2 1, .bne 1 2 0x2000, .blt 1 2 0x80000000, .bge 1 2 1, .bltu 1 2 0x2000, .bgeu 1 2 1] : List Instr),
      i.wf = false := by decide
theorem test_wf_refuses_loads_and_stores :
    ∀ i ∈ ([.lb 1 2 0x1000, .lh 1 2 0xFFFFFFFF, .lw 1 2 0x1000, .lbu 1 2 0x1000, .lhu 1 2 0x1000, .sb 1 2 0x1000,
      .sh 1 2 0xFFFFF800, .sw 1 2 0x1000] : List Instr), i.wf = false := by decide
theorem test_wf_refuses_immediates :
    ∀ i ∈ ([.addi 1 2 0xFFFFFFFF, .slti 1 2 0x1000, .sltiu 1 2 0x1000, .xori 1 2 0x1000, .ori 1 2 0x1000,
      .andi 1 2 0x1000] : List Instr), i.wf = false := by decide
theorem test_wf_refuses_system :
    ∀ i ∈ ([.sysNopB0 2 0 0, .sysNopB1 1 0 0, .sysNopB2 2 0 0, .sysNopB3 0 0 0, .sysNopB4 0x18 0 0, .sysNopB5 0x30 0 0,
      .sysNopB6 0x60 0 0] : List Instr), i.wf = false := by decide
theorem test_wf_accepts_samples : ∀ i ∈ Instr.samples, i.wf = true := by decide

/-! ### Decoding: a word written out from the spec's encodings for every constructor (spec/95 2.1 to 2.9, and R237's
rows for the SYSTEM no-ops that no vector shows) -/

/-- Witness of the `Selects` hypotheses of LuiLoadsTheUpperImmediate, AuipcAddsThePc. -/
theorem test_decode_upper :
    DecodesTo 0x7F 0x37 0x123452B7 (.lui 5 0x12345000) ∧ DecodesTo 0x7F 0x37 0xFFFFFFB7 (.lui 31 0xFFFFF000) ∧
    DecodesTo 0x7F 0x17 0xFFFFF297 (.auipc 5 0xFFFFF000) := by decide
/-- Witness of the `Selects` hypotheses of JalLinksAndJumps, JalrLinksAndJumps. -/
theorem test_decode_jumps :
    DecodesTo 0x7F 0x6F 0xFFDFF06F (.jal 0 0x1FFFFC) ∧ DecodesTo 0x7F 0x6F 0x7FFFF0EF (.jal 1 0x0FFFFE) ∧
    DecodesTo 0x7F 0x6F 0x001000EF (.jal 1 0x800) ∧ DecodesTo 0x7F 0x67 0xFFC280E7 (.jalr 1 0 5 0xFFC) ∧
    DecodesTo 0x7F 0x67 0x0000A0E7 (.jalr 1 2 1 0) := by decide
/-- Witness of the `Selects` hypotheses of EqualityBranches, SignedBranches, UnsignedBranches. -/
theorem test_decode_branches :
    DecodesTo 0x707F 0x0063 0x00208463 (.beq 1 2 8) ∧ DecodesTo 0x707F 0x1063 0xFE051CE3 (.bne 10 0 0x1FF8) ∧
    DecodesTo 0x707F 0x4063 0x8020C063 (.blt 1 2 0x1000) ∧ DecodesTo 0x707F 0x5063 0x0020D0E3 (.bge 1 2 0x800) ∧
    DecodesTo 0x707F 0x6063 0x0020E463 (.bltu 1 2 8) ∧ DecodesTo 0x707F 0x7063 0x7E20FFE3 (.bgeu 1 2 0xFFE) := by decide
/-- Witness of the `Selects` hypotheses of ByteLoads, HalfwordLoads, WordLoad. -/
theorem test_decode_loads :
    DecodesTo 0x707F 0x0003 0xFFF30283 (.lb 5 6 0xFFF) ∧ DecodesTo 0x707F 0x1003 0x00231283 (.lh 5 6 2) ∧
    DecodesTo 0x707F 0x2003 0x00432283 (.lw 5 6 4) ∧ DecodesTo 0x707F 0x4003 0x00034283 (.lbu 5 6 0) ∧
    DecodesTo 0x707F 0x5003 0x00335283 (.lhu 5 6 3) := by decide
/-- Witness of the `Selects` hypotheses of ByteStore, HalfwordStore, WordStore. -/
theorem test_decode_stores :
    DecodesTo 0x707F 0x0023 0xFE530FA3 (.sb 6 5 0xFFF) ∧ DecodesTo 0x707F 0x1023 0x7E741FA3 (.sh 8 7 0x7FF) ∧
    DecodesTo 0x707F 0x2023 0xFE502E23 (.sw 0 5 0xFFC) := by decide
/-- Witness of the `Selects` hypotheses of AddImmediateAndSetLessThanImmediate, SetLessThanImmediateUnsigned, LogicImmediates. -/
theorem test_decode_op_imm :
    DecodesTo 0x707F 0x0013 0x00500093 (.addi 1 0 5) ∧ DecodesTo 0x707F 0x2013 0x80032293 (.slti 5 6 0x800) ∧
    DecodesTo 0x707F 0x3013 0xFFF33293 (.sltiu 5 6 0xFFF) ∧ DecodesTo 0x707F 0x4013 0x7FF34293 (.xori 5 6 0x7FF) ∧
    DecodesTo 0x707F 0x6013 0x80036293 (.ori 5 6 0x800) ∧ DecodesTo 0x707F 0x7013 0x7FF37293 (.andi 5 6 0x7FF) := by decide
/-- Witness of the `Selects` hypotheses of ShiftLeftImmediate, ShiftRightImmediates. -/
theorem test_decode_immediate_shifts :
    DecodesTo 0x707F 0x1013 0x40431293 (.slli 5 6 0x20 4) ∧ DecodesTo 0xFE00707F 0x5013 0x01F35293 (.srli 5 6 31) ∧
    DecodesTo 0xFE00707F 0x40005013 0x40435293 (.srai 5 6 4) := by decide
/-- Witness of the `Selects` hypotheses of AddAndSubtract, SetLessThan, LogicOperations, RegisterShifts. -/
theorem test_decode_op :
    DecodesTo 0xFE00707F 0x0033 0x007302B3 (.add 5 6 7) ∧ DecodesTo 0xFE00707F 0x40000033 0x407302B3 (.sub 5 6 7) ∧
    DecodesTo 0xFE00707F 0x1033 0x007312B3 (.sll 5 6 7) ∧ DecodesTo 0xFE00707F 0x2033 0x007322B3 (.slt 5 6 7) ∧
    DecodesTo 0xFE00707F 0x3033 0x007332B3 (.sltu 5 6 7) ∧ DecodesTo 0xFE00707F 0x4033 0x007342B3 (.xor 5 6 7) ∧
    DecodesTo 0xFE00707F 0x5033 0x007352B3 (.srl 5 6 7) ∧ DecodesTo 0xFE00707F 0x40005033 0x407352B3 (.sra 5 6 7) ∧
    DecodesTo 0xFE00707F 0x6033 0x007362B3 (.or 5 6 7) ∧ DecodesTo 0xFE00707F 0x7033 0x007372B3 (.and 5 6 7) := by decide
/-- Witness of the `Selects` hypotheses of FenceOnlyAdvancesPc, EcallHaltsWithA0. -/
theorem test_decode_fence_and_ecall :
    DecodesTo 0x7F 0x0F 0xFFFFFF8F (.fence 31 7 31) ∧ DecodesTo 0xFE00707F 0x73 0x00000073 (.ecall 0 0) ∧
    DecodesTo 0xFE00707F 0x73 0x00100073 (.ecall 0 0) ∧ DecodesTo 0xFE00707F 0x73 0x01F00073 (.ecall 0 0) := by decide
/-- Witness of the `Selects` hypotheses of OtherSystemWordsOnlyAdvancePc. -/
theorem test_decode_system_by_funct3 :
    DecodesTo 0x707F 0x1073 0x300312F3 (.sysNopF1 0x18 5 6) ∧ DecodesTo 0x707F 0x2073 0xC00022F3 (.sysNopF2 0x60 5 0) ∧
    DecodesTo 0x707F 0x3073 0x000332F3 (.sysNopF3 0 5 6) ∧ DecodesTo 0x707F 0x4073 0x000342F3 (.sysNopF4 0 5 6) ∧
    DecodesTo 0x707F 0x5073 0x000352F3 (.sysNopF5 0 5 6) ∧ DecodesTo 0x707F 0x6073 0x000362F3 (.sysNopF6 0 5 6) ∧
    DecodesTo 0x707F 0x7073 0x000FFFF3 (.sysNopF7 0 31 31) := by decide
/-- Witness of the `Selects` hypotheses of OtherSystemWordsOnlyAdvancePc. -/
theorem test_decode_system_by_funct7 :
    DecodesTo 0x0200707F 0x02000073 0x02000073 (.sysNopB0 1 0 0) ∧
    DecodesTo 0x0600707F 0x04000073 0xFC000073 (.sysNopB1 0x7E 0 0) ∧
    DecodesTo 0x0E00707F 0x08000073 0x18000073 (.sysNopB2 0x0C 0 0) ∧
    DecodesTo 0x1E00707F 0x10000073 0x30200073 (.sysNopB3 0x18 0 0) ∧
    DecodesTo 0x3E00707F 0x20000073 0xE0000073 (.sysNopB4 0x70 0 0) ∧
    DecodesTo 0x7E00707F 0x40000073 0xC0000073 (.sysNopB5 0x60 0 0) ∧
    DecodesTo 0xFE00707F 0x80000073 0x80000073 (.sysNopB6 0x40 0 0) := by decide
/-- DC24 to DC29. -/
theorem test_decode_rejects_opcodes :
    decode 0x00000000 = .error .unsupportedOpcode ∧
    decode 0xFFFFFFFF = .error .unsupportedOpcode ∧
    decode 0x00004501 = .error .unsupportedOpcode ∧
    decode 0x0000202F = .error .unsupportedOpcode ∧
    decode 0x00002007 = .error .unsupportedOpcode ∧
    decode 0x0000001B = .error .unsupportedOpcode := by decide
/-- B17, B18, L23 to L25. -/
theorem test_decode_rejects_branch_and_load_functs :
    decode 0x0020A463 = .error .unsupportedFunct ∧
    decode 0x0020B463 = .error .unsupportedFunct ∧
    decode 0x00033283 = .error .unsupportedFunct ∧
    decode 0x00036283 = .error .unsupportedFunct ∧
    decode 0x00037283 = .error .unsupportedFunct := by decide
/-- ST16, ST17, AI33, AI34. -/
theorem test_decode_rejects_store_and_shift_functs :
    decode 0x00533023 = .error .unsupportedFunct ∧
    decode 0x00537023 = .error .unsupportedFunct ∧
    decode 0x02435293 = .error .unsupportedFunct ∧
    decode 0xC0435293 = .error .unsupportedFunct := by decide
/-- AR21 to AR24. -/
theorem test_decode_rejects_op_functs :
    decode 0x027302B3 = .error .unsupportedFunct ∧
    decode 0x407312B3 = .error .unsupportedFunct ∧
    decode 0x807302B3 = .error .unsupportedFunct ∧
    decode 0x407372B3 = .error .unsupportedFunct := by decide
/-- RT1 to RT6: the words built from chosen fields. -/
theorem test_encode_round_trips :
    encode (.sra 5 6 7) = 0x407352B3 ∧ encode (.jalr 1 0 5 0xFFC) = 0xFFC280E7 ∧ encode (.sh 8 7 0x7FF) = 0x7E741FA3 ∧
    encode (.bne 10 0 0x1FF8) = 0xFE051CE3 ∧ encode (.auipc 5 0xFFFFF000) = 0xFFFFF297 ∧
    encode (.jal 0 0x1FFFFC) = 0xFFDFF06F := by decide
/-- DC10, DC16, DC17, DC22: the Operand's populated fields. -/
theorem test_operand_fields :
    decodeOperand 0xFE530FA3 = some ⟨.store, 0x23, 0, 0, 6, 5, 0, 0xFFF⟩ ∧
    decodeOperand 0x41F35293 = some ⟨.opImm, 0x13, 5, 5, 6, 0, 0x20, 0x41F⟩ ∧
    decodeOperand 0x407302B3 = some ⟨.op, 0x33, 5, 0, 6, 7, 0x20, 7⟩ ∧
    decodeOperand 0x300312F3 = some ⟨.system, 0x73, 5, 1, 6, 0, 0x18, 6⟩ := by decide

/-! ### Single steps -/

/-- UI1, UI4. -/
theorem test_lui : regPc 5 (run 0x100 [(5, 0xDEADBEEF)] [] 0x123452B7) = some (0x12345000, 0x104) ∧
    regPc 0 (run 0x100 [] [] 0x12345037) = some (0, 0x104) := by decide
/-- UI6, UI7. -/
theorem test_auipc : regPc 5 (run 0x100 [] [] 0xFFFFF297) = some (0xFFFFF100, 0x104) ∧
    regPc 5 (run 0x3FFC [] [] 0x00000297) = some (0x3FFC, 0x4000) := by decide
/-- J3, J4, J7. -/
theorem test_jal : regPc 1 (run 0x100 [] [] 0x800000EF) = some (0x104, 0xFFF00100) ∧
    regPc 1 (run 0x100 [] [] 0x7FFFF0EF) = some (0x104, 0x001000FE) ∧
    regPc 1 (run 0x100 [] [] 0x002000EF) = some (0x104, 0x102) := by decide
/-- J10, J12, J13. -/
theorem test_jalr : regPc 1 (run 0x100 [(1, 0x200)] [] 0x004080E7) = some (0x104, 0x204) ∧
    regPc 0 (run 0x100 [] [] 0xFFF00067) = some (0, 0xFFFFFFFE) ∧
    regPc 1 (run 0x100 [(1, 0x300)] [] 0x0000A0E7) = some (0x104, 0x300) := by decide
/-- B1, B7, B16. -/
theorem test_beq : regPc 1 (run 0x100 [(1, 0xFFFFFFFF), (2, 1)] [] 0x00208463) = some (0xFFFFFFFF, 0x104) ∧
    regPc 1 (run 0x100 [(1, 7), (2, 7)] [] 0x00208463) = some (7, 0x108) ∧
    regPc 0 (run 0x80 [] [] 0xF00000E3) = some (0, 0xFFFFFF80) := by decide
/-- B8; with `x[10] = 0` the example of R142. -/
theorem test_bne : regPc 10 (run 0x100 [(10, 3)] [] 0xFE051CE3) = some (3, 0xF8) ∧
    regPc 10 (run 0x18 [(10, 0)] [] 0xFE051CE3) = some (0, 0x1C) := by decide
/-- B3, B9, B14. -/
theorem test_blt : regPc 2 (run 0x100 [(1, 0xFFFFFFFF), (2, 1)] [] 0x0020C463) = some (1, 0x108) ∧
    regPc 2 (run 0x2000 [(1, 0x80000000), (2, 0x7FFFFFFF)] [] 0x8020C063) = some (0x7FFFFFFF, 0x1000) ∧
    regPc 1 (run 0x100 [(1, 9)] [] 0x0010C463) = some (9, 0x104) := by decide
/-- B4, B10. -/
theorem test_bge : regPc 2 (run 0x100 [(1, 0xFFFFFFFF), (2, 1)] [] 0x0020D463) = some (1, 0x104) ∧
    regPc 2 (run 0x2000 [(1, 5), (2, 5)] [] 0x0020D0E3) = some (5, 0x2800) := by decide
/-- B5, B12. -/
theorem test_bltu : regPc 2 (run 0x100 [(1, 0xFFFFFFFF), (2, 1)] [] 0x0020E463) = some (1, 0x104) ∧
    regPc 1 (run 0x100 [(1, 0), (2, 0xFFFFFFFF)] [] 0x0020E463) = some (0, 0x108) := by decide
/-- B6, B11. -/
theorem test_bgeu : regPc 2 (run 0x100 [(1, 0xFFFFFFFF), (2, 1)] [] 0x0020F463) = some (1, 0x108) ∧
    regPc 2 (run 0x100 [] [] 0x7E20FFE3) = some (0, 0x10FE) := by decide
/-- L1, L3, L4. -/
theorem test_lb : regPc 5 (run 0x100 [(6, 0x1001)] loadBytes 0x00030283) = some (0xFFFFFFFF, 0x104) ∧
    regPc 5 (run 0x100 [(6, 0x1000)] loadBytes 0x00230283) = some (0x7F, 0x104) ∧
    regPc 5 (run 0x100 [(6, 0x1001)] loadBytes 0xFFF30283) = some (0xFFFFFF80, 0x104) := by decide
/-- L5, L16, L22. -/
theorem test_lh : regPc 5 (run 0x100 [(6, 0x1000)] loadBytes 0x00031283) = some (0xFFFFFF80, 0x104) ∧
    faultOf (run 0x100 [(6, 0x1000)] loadBytes 0x00131283) = some (.raised .addressMisaligned) ∧
    faultOf (run 0x100 [(6, 0xFFFFFFFE)] [] 0x00031283) = some (.raised .addressOutOfRange) := by decide
/-- L8, L10, L11. -/
theorem test_lw : regPc 5 (run 0x100 [(6, 0x1000)] loadBytes 0x00432283) = some (0x89ABCDEF, 0x104) ∧
    regPc 6 (run 0x100 [(6, 0x1000)] loadBytes 0x00432303) = some (0x89ABCDEF, 0x104) ∧
    regPc 0 (run 0x100 [(6, 0x1000)] loadBytes 0x00432003) = some (0, 0x104) := by decide
/-- L12, L13, L15, L21. -/
theorem test_lw_edges : regPc 5 (run 0 [] [] 0x00002283) = some (0x00002283, 4) ∧
    faultOf (run 0x100 [] [] 0xFFC02283) = some (.raised .addressOutOfRange) ∧
    faultOf (run 0x100 [(6, 0x1000)] loadBytes 0x00232283) = some (.raised .addressMisaligned) ∧
    faultOf (run 0x100 [(6, 0x4001)] [] 0x00032283) = some (.raised .addressMisaligned) := by decide
/-- L2, L18, L19. -/
theorem test_lbu : regPc 5 (run 0x100 [(6, 0x1001)] loadBytes 0x00034283) = some (0xFF, 0x104) ∧
    faultOf (run 0x100 [(6, 0x4000)] [] 0x00034283) = some (.raised .addressOutOfRange) ∧
    regPc 5 (run 0x100 [(6, 0x4000)] [(0x3FFF, 0xA5)] 0xFFF34283) = some (0xA5, 0x104) := by decide
/-- L6, L17. -/
theorem test_lhu : regPc 5 (run 0x100 [(6, 0x1000)] loadBytes 0x00035283) = some (0xFF80, 0x104) ∧
    faultOf (run 0x100 [(6, 0x1000)] loadBytes 0x00335283) = some (.raised .addressMisaligned) := by decide
/-- ST1, ST4, ST11. -/
theorem test_sb :
    bytesPc 0x1000 4 (run 0x100 [(5, 0x89ABCDEF), (6, 0x1001)] storeBytes 0x00530023) =
      some ([0x11, 0xEF, 0x11, 0x11], 0x104) ∧
    bytesPc 0x1000 2 (run 0x100 [(5, 0x1FF), (6, 0x1001)] storeBytes 0xFE530FA3) = some ([0xFF, 0x11], 0x104) ∧
    faultOf (run 0x100 [(5, 0xFF), (6, 0x4000)] [] 0x00530023) = some (.raised .addressOutOfRange) := by decide
/-- ST2, ST8, ST14. -/
theorem test_sh :
    bytesPc 0x1000 5 (run 0x100 [(5, 0x89ABCDEF), (6, 0x1000)] storeBytes 0x00531123) =
      some ([0x11, 0x11, 0xEF, 0xCD, 0x11], 0x104) ∧
    faultOf (run 0x100 [(5, 0xFFFF), (6, 0x1000)] storeBytes 0x005310A3) = some (.raised .addressMisaligned) ∧
    faultOf (run 0x100 [(5, 0xFF), (6, 0x4001)] [] 0x00531023) = some (.raised .addressMisaligned) := by decide
/-- ST3, ST5, ST6. -/
theorem test_sw :
    bytesPc 0x1003 5 (run 0x100 [(5, 0x89ABCDEF), (6, 0x1000)] storeBytes 0x00532223) =
      some ([0x11, 0xEF, 0xCD, 0xAB, 0x89], 0x104) ∧
    bytesPc 0x1000 5 (run 0x100 [(6, 0x1000)] storeBytes 0x00032023) = some ([0, 0, 0, 0, 0x11], 0x104) ∧
    bytesPc 0x1004 4 (run 0x100 [(6, 0x1004)] storeBytes 0x00632023) = some ([4, 0x10, 0, 0], 0x104) := by decide
/-- ST9, ST15. -/
theorem test_sw_faults : faultOf (run 0x100 [(6, 0x1000)] storeBytes 0x00532123) = some (.raised .addressMisaligned) ∧
    faultOf (run 0x100 [(5, 0xFF)] [] 0xFE502E23) = some (.raised .addressOutOfRange) := by decide
/-- AI1, AI3, AI4. -/
theorem test_addi : regPc 1 (run 0 [] [] 0x00500093) = some (5, 4) ∧
    regPc 5 (run 0x100 [(6, 0x7FFFFFFF)] [] 0x00130293) = some (0x80000000, 0x104) ∧
    regPc 5 (run 0x100 [(5, 0x55), (6, 0x800)] [] 0x80030293) = some (0, 0x104) := by decide
/-- AI8, AI10. -/
theorem test_slti : regPc 5 (run 0x100 [(6, 0xFFFFFFFE)] [] 0xFFF32293) = some (1, 0x104) ∧
    regPc 5 (run 0x100 [(5, 7), (6, 0x7FFFFFFF)] [] 0x80032293) = some (0, 0x104) := by decide
/-- AI11, AI13. -/
theorem test_sltiu : regPc 5 (run 0x100 [(6, 0xFFFFFFFE)] [] 0xFFF33293) = some (1, 0x104) ∧
    regPc 5 (run 0x100 [(5, 7), (6, 0xFFFFFFFF)] [] 0x00133293) = some (0, 0x104) := by decide
/-- AI15, AI16. -/
theorem test_xori : regPc 5 (run 0x100 [(6, 0x12345678)] [] 0xFFF34293) = some (0xEDCBA987, 0x104) ∧
    regPc 5 (run 0x100 [(6, 0xFFFFFFFF)] [] 0x7FF34293) = some (0xFFFFF800, 0x104) := by decide
/-- AI17, AI18. -/
theorem test_ori : regPc 5 (run 0x100 [(6, 0x123)] [] 0x80036293) = some (0xFFFFF923, 0x104) ∧
    regPc 5 (run 0x100 [(6, 0x80000000)] [] 0x7FF36293) = some (0x800007FF, 0x104) := by decide
/-- AI19, AI20. -/
theorem test_andi : regPc 5 (run 0x100 [(6, 0xFFFFFFFF)] [] 0x80037293) = some (0xFFFFF800, 0x104) ∧
    regPc 5 (run 0x100 [(6, 0x12345678)] [] 0x7FF37293) = some (0x678, 0x104) := by decide
/-- AI23, AI24, AI25. -/
theorem test_slli : regPc 5 (run 0x100 [(6, 0x80000001)] [] 0x01F31293) = some (0x80000000, 0x104) ∧
    regPc 5 (run 0x100 [(6, 0xF)] [] 0x40431293) = some (0xF0, 0x104) ∧
    regPc 5 (run 0x100 [(6, 0xF)] [] 0x02031293) = some (0xF, 0x104) := by decide
/-- AI27, AI28. -/
theorem test_srli : regPc 5 (run 0x100 [(6, 0x80000001)] [] 0x00135293) = some (0x40000000, 0x104) ∧
    regPc 5 (run 0x100 [(6, 0x80000001)] [] 0x01F35293) = some (1, 0x104) := by decide
/-- AI30, AI32. -/
theorem test_srai : regPc 5 (run 0x100 [(6, 0x80000001)] [] 0x40135293) = some (0xC0000000, 0x104) ∧
    regPc 5 (run 0x100 [(6, 0x7FFFFFFF)] [] 0x40435293) = some (0x07FFFFFF, 0x104) := by decide
/-- AI33. -/
theorem test_op_imm_funct : faultOf (run 0x100 [(5, 7), (6, 0xFF)] [] 0x02435293) = some (.raised .unsupportedFunct) := by decide
/-- AR1, AR3. -/
theorem test_add : regPc 5 (run 0x100 [(5, 0x55), (6, 0xFFFFFFFF), (7, 1)] [] 0x007302B3) = some (0, 0x104) ∧
    regPc 5 (run 0x100 [(5, 0x80000001)] [] 0x005282B3) = some (2, 0x104) := by decide
/-- AR5, AR7. -/
theorem test_sub : regPc 5 (run 0x100 [(6, 3), (7, 5)] [] 0x407302B3) = some (0xFFFFFFFE, 0x104) ∧
    regPc 5 (run 0x100 [(7, 0x80000000)] [] 0x407002B3) = some (0x80000000, 0x104) := by decide
/-- AR8, AR9. -/
theorem test_sll : regPc 5 (run 0x100 [(6, 1), (7, 0x23)] [] 0x007312B3) = some (8, 0x104) ∧
    regPc 5 (run 0x100 [(6, 0xFFFFFFFF), (7, 0xFFFFFFFF)] [] 0x007312B3) = some (0x80000000, 0x104) := by decide
/-- AR10, AR11. -/
theorem test_slt : regPc 5 (run 0x100 [(6, 0xFFFFFFFF), (7, 1)] [] 0x007322B3) = some (1, 0x104) ∧
    regPc 5 (run 0x100 [(5, 9), (6, 0x7FFFFFFF), (7, 0x80000000)] [] 0x007322B3) = some (0, 0x104) := by decide
/-- AR12, AR13. -/
theorem test_sltu : regPc 5 (run 0x100 [(5, 9), (6, 0xFFFFFFFF), (7, 1)] [] 0x007332B3) = some (0, 0x104) ∧
    regPc 5 (run 0x100 [(7, 0x80000000)] [] 0x007032B3) = some (1, 0x104) := by decide
/-- AR14, AR19, AR20. -/
theorem test_xor_or_and :
    regPc 5 (run 0x100 [(6, 0xFF00FF00), (7, 0x0FF00FF0)] [] 0x007342B3) = some (0xF0F0F0F0, 0x104) ∧
    regPc 5 (run 0x100 [(6, 0xFF00FF00), (7, 0x0FF00FF0)] [] 0x007362B3) = some (0xFFF0FFF0, 0x104) ∧
    regPc 5 (run 0x100 [(6, 0xFF00FF00), (7, 0x0FF00FF0)] [] 0x007372B3) = some (0x0F000F00, 0x104) := by decide
/-- AR15, AR16. -/
theorem test_srl : regPc 5 (run 0x100 [(6, 0x80000000), (7, 0x1F)] [] 0x007352B3) = some (1, 0x104) ∧
    regPc 5 (run 0x100 [(5, 1), (6, 0x80000000), (7, 0x20)] [] 0x007352B3) = some (0x80000000, 0x104) := by decide
/-- AR17, AR18. -/
theorem test_sra : regPc 5 (run 0x100 [(6, 0x80000000), (7, 0x1F)] [] 0x407352B3) = some (0xFFFFFFFF, 0x104) ∧
    regPc 5 (run 0x100 [(6, 0xF0000000), (7, 0x24)] [] 0x407352B3) = some (0xFF000000, 0x104) := by decide
/-- AR21. -/
theorem test_op_funct : faultOf (run 0x100 [(5, 9), (6, 3), (7, 4)] [] 0x027302B3) = some (.raised .unsupportedFunct) := by decide
/-- MM2, MM4. -/
theorem test_fence : regPc 0 (run 0x30 [] [] 0x0000100F) = some (0, 0x34) ∧
    regPc 31 (run 0x30 [(31, 5)] [] 0xFFFFFF8F) = some (5, 0x34) := by decide
/-- SY1, SY3: the outcome is the model's record of the halt (notes/assumptions/5.md). -/
theorem test_ecall : pcHalt (run 0x100 [(10, 0x2A)] [] 0x00000073) = some (0x100, some 0x2A) ∧
    pcHalt (run 0x100 [(10, 0xFFFFFFFF)] [] 0x00100073) = some (0x100, some 0xFFFFFFFF) := by decide
/-- SY5, SY6, SY7; `funct3` 011 to 110 as in the corner cases of R237. -/
theorem test_system_nop_by_funct3 :
    regPc 5 (run 0x100 [(5, 0x55), (6, 0x66)] [] 0x300312F3) = some (0x55, 0x104) ∧
    regPc 5 (run 0x100 [(5, 0x55)] [] 0xC00022F3) = some (0x55, 0x104) ∧
    regPc 5 (run 0x100 [(5, 0x55)] [] 0x000332F3) = some (0x55, 0x104) ∧
    regPc 5 (run 0x100 [(5, 0x55)] [] 0x000342F3) = some (0x55, 0x104) ∧
    regPc 5 (run 0x100 [(5, 0x55)] [] 0x000352F3) = some (0x55, 0x104) ∧
    regPc 5 (run 0x100 [(5, 0x55)] [] 0x000362F3) = some (0x55, 0x104) ∧
    regPc 31 (run 0x100 [(31, 7)] [] 0x000FFFF3) = some (7, 0x104) := by decide
/-- SY8 to SY11, and the other rows of R237 with `funct3 = 000`. -/
theorem test_system_nop_by_funct7 :
    ∀ w ∈ [0x30200073, 0x10500073, 0x10200073, 0x02000073, 0xFC000073, 0x18000073, 0xE0000073, 0xC0000073, 0x80000073],
      pcHalt (run 0x100 [(10, 1)] [] w) = some (0x104, none) := by decide
/-- FE1, FE2, FE5, FE7: nothing is fetched, so the placed word plays no part. -/
theorem test_fetch_stops :
    faultOf (step (start 0x4000 [] [])) = some .pcOutOfRange ∧ faultOf (step (start 0x3FFD [] [])) = some .pcOutOfRange ∧
    faultOf (step (start 0x102 [] [])) = some (.raised .addressMisaligned) ∧
    faultOf (step (start 0xFFFFFFFC [] [])) = some .pcOutOfRange := by decide
/-- FE4, and R91: the all-zero word faults. -/
theorem test_fetch_last_word : regPc 0 (run 0x3FFC [] [] 0x00000013) = some (0, 0x4000) ∧
    faultOf (step (start 0x3FFC [] [])) = some (.raised .unsupportedOpcode) := by decide
/-- The host's two questions on one row: the decoder reads the word, and it runs as the first instruction after reset. -/
theorem test_first_after_reset : decodeTableWord 32 0x00500093 = some (.addi 1 0 5) ∧
    regPc 1 (step (State.reset.withFetchWord 32 0x00500093)) = some (5, 4) := by decide
/-- R91, R302: with nothing placed the first step from `State.reset` fetches the zero word and faults. -/
theorem test_reset_runs_into_zero_word : faultOf (step State.reset) = some (.raised .unsupportedOpcode) := by decide

/-! ### Witnesses: what each statement with hypotheses assumes, met by concrete states and operands -/

/-- Memory of 0x4000 bytes that lists one byte, the last. -/
def lastByte : Memory := (start 0 [] [(0x3FFF, 0x5A)]).mem

/-- Parameters with two entries for one address, the last of the array. -/
def doubled : Params := { memSize := 8, entryPc := 6, initSp := 0xFFFFFFFF, image := [(7, 0x12), (7, 0x34), (8, 0x56)] }

theorem witness_ResetHoldsTheLoadersValues :
    (3 : RegIdx) ≠ 2 ∧ (0 : RegIdx) ≠ 2 ∧ 7 < doubled.memSize ∧
    doubled.image.find? (fun c => c.1 == 7) = some (7, 0x12) ∧
    (∀ c ∈ doubled.image, c.1 ≠ 0) ∧ (∀ c ∈ doubled.image, c.1 ≠ 6) := by decide
theorem witness_ResetMeetsTheInvariantForAllParameters :
    (⟨4, 1, 0, []⟩ : Params).valid = true ∧ (⟨2 ^ 32, 0xFFFFFFFF, 1, [(0, 1)]⟩ : Params).valid = true ∧
    doubled.valid = true := by decide
/-- Each clause at its edge: the last word, the first `pc` with no room, a `pc` in range that is not a multiple of 4. -/
theorem witness_FetchTestsRangeThenAlignment :
    ((start 0x3FFD [] []).mem.size < (start 0x3FFD [] []).pc.toNat + 4) ∧
    ((start 0x3FFA [] []).pc.toNat + 4 ≤ (start 0x3FFA [] []).mem.size ∧ (start 0x3FFA [] []).pc.toNat % 4 ≠ 0) ∧
    ((start 0x3FFC [] []).pc.toNat + 4 ≤ (start 0x3FFC [] []).mem.size ∧ (start 0x3FFC [] []).pc.toNat % 4 = 0) := by
  decide

/-- `sw x5, 0(x6)` as bytes at an address. -/
def swAt (a : Nat) : List Host.Cell := [(a, 0x23), (a + 1, 0x20), (a + 2, 0x53)]
/-- `lh x5, 0(x6)` as bytes at an address. -/
def lhAt (a : Nat) : List Host.Cell := [(a, 0x83), (a + 1, 0x12), (a + 2, 0x03)]

theorem witness_StepRunsTheDecodedInstruction :
    (start 0x3FFC [] (swAt 0x3FFC)).halted = none ∧ (start 0x3FFC [] (swAt 0x3FFC)).pc.toNat + 4 ≤ 0x4000 ∧
    (start 0x3FFC [] (swAt 0x3FFC)).mem.size = 0x4000 ∧ (start 0x3FFC [] (swAt 0x3FFC)).pc.toNat % 4 = 0 ∧
    decode (wordAtPc (start 0x3FFC [] (swAt 0x3FFC))) = .ok (.sw 6 5 0) := by decide
/-- The clauses on the decoded word: neither decodes, misaligned, out of range at the first absent byte, and completing
at the last byte; the clauses on the fetch are those of the witness above. -/
theorem witness_StepOutcomesComeInPriorityOrder :
    decode (wordAtPc (start 0x3FFC [] [])) = .error .unsupportedOpcode ∧
    decode (wordAtPc (start 0 [] [(0, 0x63), (1, 0xA4), (2, 0x20)])) = .error .unsupportedFunct ∧
    (decode (wordAtPc (start 0x100 [(6, 0x4001)] (swAt 0x100))) = .ok (.sw 6 5 0) ∧
      (Instr.sw 6 5 0).access (start 0x100 [(6, 0x4001)] (swAt 0x100)) = some (0x4001, 4) ∧
      (0x4001 : Word).toNat % 4 ≠ 0) ∧
    (decode (wordAtPc (start 0x100 [(6, 0x4000)] (lhAt 0x100))) = .ok (.lh 5 6 0) ∧
      (Instr.lh 5 6 0).access (start 0x100 [(6, 0x4000)] (lhAt 0x100)) = some (0x4000, 2) ∧
      (0x4000 : Word).toNat % 2 = 0 ∧ 0x4000 < (0x4000 : Word).toNat + 2) := by decide
theorem witness_StepOutcomesComeInPriorityOrder_completes :
    decode (wordAtPc (start 0x100 [(6, 0x3FFE)] (lhAt 0x100))) = .ok (.lh 5 6 0) ∧
    (Instr.lh 5 6 0).accessOk (start 0x100 [(6, 0x3FFE)] (lhAt 0x100)) := by
  refine ⟨by decide, fun a n h => ?_⟩
  obtain ⟨rfl, rfl⟩ : (0x3FFE : Word) = a ∧ 2 = n := by
    simpa using (by decide : (Instr.lh 5 6 0).access (start 0x100 [(6, 0x3FFE)] (lhAt 0x100)) = some (0x3FFE, 2)).symm.trans h
  decide
theorem witness_SelectedInstructionsFaultOnlyAsLoadsOrStores :
    exec (.sh 6 5 1) (start 0 [(6, 0x1000)] []) = .fault (.raised .addressMisaligned) ∧
    exec (.lbu 5 6 0) (start 0 [(6, 0x4000)] []) = .fault (.raised .addressOutOfRange) := ⟨rfl, rfl⟩

/-- A state whose run has ended. -/
def ended : State := { start 0x1C [(10, 55)] [(0x1C, 0x73)] with halted := some 55 }

theorem witness_HaltIsFinal : ended.halted = some 55 := by decide
theorem witness_PlacedWordIsTheNextInstruction :
    (start 0x3FFC [] []).pc.toNat + 4 ≤ (start 0x3FFC [] []).mem.size ∧ (start 0x3FFC [] []).pc.toNat % 4 = 0 ∧
    decode 0x00500093 = .ok (.addi 1 0 5) := by decide
/-- A store at the end of the array, and the final state of a run. -/
theorem witness_StepKeepsTheInvariant :
    ((start 0x100 [(5, 0xFF), (6, 0x3FFC)] (swAt 0x100)).inv = true ∧
      ∃ t, step (start 0x100 [(5, 0xFF), (6, 0x3FFC)] (swAt 0x100)) = .next t) ∧
    (ended.inv = true ∧ ∃ t, step ended = .next t) := ⟨⟨by decide, _, rfl⟩, by decide, _, rfl⟩
/-- JALR to an odd sum (J8's word), and an even `pc` that is no multiple of 4 in a run that has ended. -/
theorem witness_StepLeavesAnEvenPc :
    ((start 0x100 [(1, 0x105)] [(0x100, 0x67), (0x101, 0x80)]).pc.toNat % 2 = 0 ∧
      ∃ t, step (start 0x100 [(1, 0x105)] [(0x100, 0x67), (0x101, 0x80)]) = .next t) ∧
    (({ ended with pc := 2 } : State).pc.toNat % 2 = 0 ∧ ∃ t, step { ended with pc := 2 } = .next t) :=
  ⟨⟨by decide, _, rfl⟩, by decide, _, rfl⟩
theorem witness_OnlyStoresWriteMemory :
    (∃ t, exec (.sb 6 5 0) (start 0 [(6, 0x3FFF)] []) = .next t) ∧
    ((Instr.lb 5 6 0).isStore = false ∧ ∃ t, exec (.lb 5 6 0) (start 0 [(6, 0x3FFF)] []) = .next t) :=
  ⟨⟨_, rfl⟩, rfl, _, rfl⟩
theorem witness_OnlyTheDestinationIsWritten :
    (∃ t, exec (.addi 5 6 1) (start 0 [] []) = .next t) ∧ (Instr.addi 5 6 1).dest ≠ some 6 ∧
    (Instr.ecall 0 0).dest ≠ some 0 ∧ ∃ t, exec (.ecall 0 0) (start 0 [] []) = .next t :=
  ⟨⟨_, rfl⟩, by decide, by decide, _, rfl⟩
/-- Two states that agree on the sources 6 and 7 of `add x5, x6, x7` and differ in registers 5 and 8. -/
theorem witness_OutcomeDependsOnNamedRegistersOnly :
    (start 0 [(5, 1), (6, 2), (7, 3)] []).pc = (start 0 [(6, 2), (7, 3), (8, 4)] []).pc ∧
    (start 0 [(5, 1), (6, 2), (7, 3)] []).mem = (start 0 [(6, 2), (7, 3), (8, 4)] []).mem ∧
    (start 0 [(5, 1), (6, 2), (7, 3)] []).halted = (start 0 [(6, 2), (7, 3), (8, 4)] []).halted ∧
    (start 0 [(5, 1), (6, 2), (7, 3)] []) ≠ (start 0 [(6, 2), (7, 3), (8, 4)] []) ∧
    ∀ r ∈ (Instr.add 5 6 7).sources,
      (start 0 [(5, 1), (6, 2), (7, 3)] []).reg r = (start 0 [(6, 2), (7, 3), (8, 4)] []).reg r := by decide
theorem witness_PcIsUpdatedByTheTable :
    ((Instr.bge 1 2 0x1000).wf = true ∧ ∃ t, exec (.bge 1 2 0x1000) (start 0x2000 [] []) = .next t) ∧
    ((Instr.jal 1 0x1FFFFE).wf = true ∧ ∃ t, exec (.jal 1 0x1FFFFE) (start 0 [] []) = .next t) :=
  ⟨⟨by decide, _, rfl⟩, by decide, _, rfl⟩
theorem witness_WrittenRegisterReadsBack : (31 : RegIdx) ≠ 0 ∧ (0 : RegIdx) ≠ 31 ∧ (30 : RegIdx) ≠ 31 := by decide
/-- Each clause at its edge, for each width. -/
theorem witness_MemReadIsLittleEndian :
    lastByte.size < (0x4000 : Word).toNat + Width.byte.bytes ∧ lastByte.size < (0x3FFF : Word).toNat + Width.half.bytes ∧
    lastByte.size < (0xFFFFFFFF : Word).toNat + Width.word.bytes ∧
    (0x3FFF : Word).toNat + Width.byte.bytes ≤ lastByte.size ∧
    (0x3FFE : Word).toNat + Width.half.bytes ≤ lastByte.size ∧ 1 < Width.half.bytes ∧
    (0x3FFC : Word).toNat + Width.word.bytes ≤ lastByte.size ∧ 3 < Width.word.bytes := by decide
/-- The clauses' own edges are those of the reading statement; the bytes outside are below and above the stored ones. -/
theorem witness_MemWriteStoresExactlyItsBytes :
    lastByte.size < (0x3FFD : Word).toNat + Width.word.bytes ∧
    (0x3FFC : Word).toNat + Width.word.bytes ≤ lastByte.size ∧ 3 < Width.word.bytes ∧
    0x3FFB < (0x3FFC : Word).toNat ∧ (0x3FFC : Word).toNat + Width.word.bytes ≤ 0x4000 := by decide
theorem witness_CanonicalMemoriesAreEqualData :
    lastByte.wf = true ∧ ((lastByte.setByte 2 7).setByte 2 0).wf = true ∧
    lastByte.size = ((lastByte.setByte 2 7).setByte 2 0).size ∧
    ∀ a, lastByte.byte a = ((lastByte.setByte 2 7).setByte 2 0).byte a := by
  refine ⟨by decide, by decide, by decide, fun a => ?_⟩
  rw [(by decide : (lastByte.setByte 2 7).setByte 2 0 = lastByte)]
/-- The load names the stored address through another base and offset, and loads into its own base. -/
theorem witness_LoadReturnsTheStoredWord :
    (∃ t, exec (.sw 6 5 ((4 : BitVec 12).setWidth 32)) (start 0 [(5, 0xCAFE), (6, 0x3FF8), (7, 0x4000)] []) = .next t) ∧
    (start 0 [(5, 0xCAFE), (6, 0x3FF8), (7, 0x4000)] []).reg 7 + (0xFFC : BitVec 12).signExtend 32 =
      (start 0 [(5, 0xCAFE), (6, 0x3FF8), (7, 0x4000)] []).reg 6 + (4 : BitVec 12).signExtend 32 :=
  ⟨⟨_, rfl⟩, by decide⟩
theorem witness_StoreIsSeenByTheNextFetch :
    (∃ t, exec (.sw 0 5 ((4 : BitVec 12).setWidth 32)) (start 0 [(5, 0x13)] []) = .next t) ∧
    (start 0 [(5, 0x13)] []).reg 0 + (4 : BitVec 12).signExtend 32 = (start 0 [(5, 0x13)] []).pc + 4 :=
  ⟨⟨_, rfl⟩, by decide⟩
/-- Immediates at the ends of their ranges, and SYSTEM words. -/
theorem witness_DecodingUndoesEncoding :
    (Instr.lui 31 0xFFFFF000).wf = true ∧ (Instr.jal 1 0x1FFFFE).wf = true ∧ (Instr.beq 1 2 0x1FFE).wf = true ∧
    (Instr.sw 1 2 0xFFF).wf = true ∧ (Instr.slli 1 2 0x7F 31).wf = true ∧ (Instr.sysNopB6 0x40 31 31).wf = true := by decide
theorem witness_DecodedInstructionsAreWellFormed : decode 0xFE051CE3 = .ok (.bne 10 0 0x1FF8) := by decide
/-- A MISC-MEM word and a SYSTEM word with dropped bits set, and a word that is carried whole. -/
theorem witness_EncodingUndoesDecoding :
    decode 0xFFFFFF8F = .ok (.fence 31 7 31) ∧ decode 0x01F00073 = .ok (.ecall 0 0) ∧
    decode 0x7E20FFE3 = .ok (.bgeu 1 2 0xFFE) := by decide
theorem witness_DecoderAgreesWithTheOpcodeTable :
    decode 0x30200073 = .ok (.sysNopB3 0x18 0 0) ∧ (⟨0x1E00707F, 0x10000073⟩ : Row) ∈ opcodeTable ∧
    (⟨0x1E00707F, 0x10000073⟩ : Row).admits 0x30200073 = true := by decide
/-- An Operand of each kind. -/
theorem witness_OperandOfEachKind :
    (decodeOperand 0x123452B7).map Operand.kind = some .lui ∧ (decodeOperand 0xFFFFF297).map Operand.kind = some .auipc ∧
    (decodeOperand 0x800000EF).map Operand.kind = some .jal ∧ (decodeOperand 0xFFC280E7).map Operand.kind = some .jalr ∧
    (decodeOperand 0x8020C063).map Operand.kind = some .branch ∧ (decodeOperand 0xFFF30283).map Operand.kind = some .load ∧
    (decodeOperand 0x7E741FA3).map Operand.kind = some .store ∧ (decodeOperand 0x41F35293).map Operand.kind = some .opImm ∧
    (decodeOperand 0x407302B3).map Operand.kind = some .op ∧ (decodeOperand 0xFFFFFF8F).map Operand.kind = some .miscMem ∧
    (decodeOperand 0x300312F3).map Operand.kind = some .system := by decide
theorem witness_OperandCarriesItsKindsFields :
    decodeOperand 0xFE530FA3 = some ⟨.store, 0x23, 0, 0, 6, 5, 0, 0xFFF⟩ := by decide
theorem witness_OperandImmediateIsReconstructed :
    decodeOperand 0xFE051CE3 = some ⟨.branch, 0x63, 0, 1, 10, 0, 0, 0x1FF8⟩ := by decide
/-- In range at the last byte, out of range at the first absent one. -/
theorem witness_ByteLoads :
    (0x3FFF : Word) = (start 0 [(6, 0x4000)] []).reg 6 + (0xFFF : BitVec 12).signExtend 32 ∧
    (0x3FFF : Word).toNat < (start 0 [(6, 0x4000)] []).mem.size ∧
    (0x4000 : Word) = (start 0 [(6, 0x4000)] []).reg 6 + (0 : BitVec 12).signExtend 32 ∧
    (start 0 [(6, 0x4000)] []).mem.size ≤ (0x4000 : Word).toNat := by decide
/-- The last halfword, an odd address, and the first aligned address out of range. -/
theorem witness_HalfwordLoads :
    (0x3FFE : Word) = (start 0 [(6, 0x3FFF)] []).reg 6 + (0xFFF : BitVec 12).signExtend 32 ∧
    (0x3FFE : Word).toNat % 2 = 0 ∧ (0x3FFE : Word).toNat + 2 ≤ (start 0 [(6, 0x3FFF)] []).mem.size ∧
    (0x3FFF : Word) = (start 0 [(6, 0x3FFF)] []).reg 6 + (0 : BitVec 12).signExtend 32 ∧ (0x3FFF : Word).toNat % 2 ≠ 0 ∧
    (0x4000 : Word) = (start 0 [(6, 0x3FFF)] []).reg 6 + (1 : BitVec 12).signExtend 32 ∧
    (0x4000 : Word).toNat % 2 = 0 ∧ (start 0 [(6, 0x3FFF)] []).mem.size < (0x4000 : Word).toNat + 2 := by decide
/-- The last word, an address that is 2 modulo 4, and the first aligned address out of range. -/
theorem witness_WordLoad :
    (0x3FFC : Word) = (start 0 [(6, 0x3FFE)] []).reg 6 + (0xFFE : BitVec 12).signExtend 32 ∧
    (0x3FFC : Word).toNat % 4 = 0 ∧ (0x3FFC : Word).toNat + 4 ≤ (start 0 [(6, 0x3FFE)] []).mem.size ∧
    (0x3FFE : Word) = (start 0 [(6, 0x3FFE)] []).reg 6 + (0 : BitVec 12).signExtend 32 ∧ (0x3FFE : Word).toNat % 4 ≠ 0 ∧
    (0x4000 : Word) = (start 0 [(6, 0x3FFE)] []).reg 6 + (2 : BitVec 12).signExtend 32 ∧
    (0x4000 : Word).toNat % 4 = 0 ∧ (start 0 [(6, 0x3FFE)] []).mem.size < (0x4000 : Word).toNat + 4 := by decide
theorem witness_ByteStore :
    (0x3FFF : Word) = (start 0 [(5, 0xFF), (6, 0x4000)] []).reg 6 + (0xFFF : BitVec 12).signExtend 32 ∧
    (0x3FFF : Word).toNat < (start 0 [(5, 0xFF), (6, 0x4000)] []).mem.size ∧
    (0x4000 : Word) = (start 0 [(5, 0xFF), (6, 0x4000)] []).reg 6 + (0 : BitVec 12).signExtend 32 ∧
    (start 0 [(5, 0xFF), (6, 0x4000)] []).mem.size ≤ (0x4000 : Word).toNat := by decide
theorem witness_HalfwordStore :
    (0x3FFE : Word) = (start 0 [(5, 0xFF), (6, 0x3FFF)] []).reg 6 + (0xFFF : BitVec 12).signExtend 32 ∧
    (0x3FFE : Word).toNat % 2 = 0 ∧ (0x3FFE : Word).toNat + 2 ≤ (start 0 [(5, 0xFF), (6, 0x3FFF)] []).mem.size ∧
    (0x3FFF : Word) = (start 0 [(5, 0xFF), (6, 0x3FFF)] []).reg 6 + (0 : BitVec 12).signExtend 32 ∧
    (0x3FFF : Word).toNat % 2 ≠ 0 ∧
    (0x4000 : Word) = (start 0 [(5, 0xFF), (6, 0x3FFF)] []).reg 6 + (1 : BitVec 12).signExtend 32 ∧
    (0x4000 : Word).toNat % 2 = 0 ∧ (start 0 [(5, 0xFF), (6, 0x3FFF)] []).mem.size < (0x4000 : Word).toNat + 2 := by decide
theorem witness_WordStore :
    (0x3FFC : Word) = (start 0 [(5, 0xFF), (6, 0x3FFE)] []).reg 6 + (0xFFE : BitVec 12).signExtend 32 ∧
    (0x3FFC : Word).toNat % 4 = 0 ∧ (0x3FFC : Word).toNat + 4 ≤ (start 0 [(5, 0xFF), (6, 0x3FFE)] []).mem.size ∧
    (0x3FFE : Word) = (start 0 [(5, 0xFF), (6, 0x3FFE)] []).reg 6 + (0 : BitVec 12).signExtend 32 ∧
    (0x3FFE : Word).toNat % 4 ≠ 0 ∧
    (0x4000 : Word) = (start 0 [(5, 0xFF), (6, 0x3FFE)] []).reg 6 + (2 : BitVec 12).signExtend 32 ∧
    (0x4000 : Word).toNat % 4 = 0 ∧ (start 0 [(5, 0xFF), (6, 0x3FFE)] []).mem.size < (0x4000 : Word).toNat + 4 := by decide
theorem witness_OtherSystemWordsOnlyAdvancePc : (Instr.sysNopB6 0x40 5 6) ∈
    ([.sysNopF1 0x40 5 6, .sysNopF2 0x40 5 6, .sysNopF3 0x40 5 6, .sysNopF4 0x40 5 6, .sysNopF5 0x40 5 6,
      .sysNopF6 0x40 5 6, .sysNopF7 0x40 5 6, .sysNopB0 0x40 5 6, .sysNopB1 0x40 5 6, .sysNopB2 0x40 5 6,
      .sysNopB3 0x40 5 6, .sysNopB4 0x40 5 6, .sysNopB5 0x40 5 6, .sysNopB6 0x40 5 6] : List Instr) := by decide

end Sys2Proof.Tests
end

section
/-! PROOFS. The register file and the state after reset (spec/10_state.md R20, R21, R32). -/

namespace Sys2Proof.Machine

/-- A register file of zeros reads 0 at every register. -/
theorem reg_eq_zero_of_regs_zero (s : State) (r : RegIdx) (h : s.regs = Vector.replicate 31 0) : s.reg r = 0 := by
  simp [State.reg, h]

/-- Reset is a register file of zeros in which the loader has written `x[2]` (R32). -/
theorem resetWith_eq_setReg (p : Params) : State.resetWith p =
    ({ regs := Vector.replicate 31 0, pc := p.entryPc, mem := Memory.ofImage p.memSize p.image, halted := none } :
      State).setReg 2 p.initSp := rfl

theorem resetWith_reg_sp (p : Params) : (State.resetWith p).reg 2 = p.initSp := by
  rw [resetWith_eq_setReg]
  exact reg_setReg_same _ _ _ (by decide)

theorem resetWith_reg_other (p : Params) (r : RegIdx) (h : r ≠ 2) : (State.resetWith p).reg r = 0 := by
  rw [resetWith_eq_setReg, reg_setReg_other _ _ _ _ h]
  exact reg_eq_zero_of_regs_zero _ _ rfl

@[simp] theorem resetWith_pc (p : Params) : (State.resetWith p).pc = p.entryPc := rfl
@[simp] theorem resetWith_mem (p : Params) : (State.resetWith p).mem = Memory.ofImage p.memSize p.image := rfl

/-- Settles O1: `x[2]` is the one register the loader writes, and the bytes of memory are those of `Memory.ofImage`. -/
theorem resetHoldsTheLoadersValues : Obligations.ResetHoldsTheLoadersValues := by
  intro p
  refine ⟨resetWith_reg_sp p, resetWith_reg_other p, resetWith_pc p, ?_, ?_, ?_⟩ <;> rw [resetWith_mem]
  · exact ofImage_size _ _
  · intro a ha b hb
    exact byte_ofImage_listed _ _ _ _ ha hb
  · intro a ha
    exact byte_ofImage_unlisted _ _ _ ha

/-- Settles O18: `x[0]` is not stored, so it is no part of what a write changes. -/
theorem registerZeroReadsZero : Obligations.RegisterZeroReadsZero :=
  ⟨fun s v => ⟨setReg_zero s v, reg_zero (s.setReg 0 v)⟩, reg_zero⟩

end Sys2Proof.Machine
end

section
/-! PROOFS. Memory accesses: `MemRead` and `MemWrite` (spec/20_memory.md R45, R46). -/

namespace Sys2Proof.Machine

/-- Each byte of a little-endian read is the byte of memory at its own address (R41, R45). -/
theorem extractLsb'_readLE (m : Memory) (a n k : Nat) (hn : n ≤ 4) (hk : k < n) :
    (m.readLE a n).extractLsb' (8 * k) 8 = m.byte (a + k) := by
  apply BitVec.eq_of_getLsbD_eq
  intro j hj
  have hin : 8 * k + j < 8 * n := by omega
  have hbyte : (8 * k + j) / 8 = k := by omega
  have hbit : (8 * k + j) % 8 = j := by omega
  rw [BitVec.getLsbD_extractLsb', readLE_getLsbD m a n (8 * k + j) hn, hbyte, hbit]
  simp [hj, hin]

/-- A read of `n` bytes has no bit from `8n` on (R45). -/
theorem readLE_toNat_lt (m : Memory) (a n : Nat) (hn : n ≤ 4) : (m.readLE a n).toNat < 2 ^ (8 * n) := by
  apply Nat.lt_pow_two_of_testBit
  intro i hi
  rw [BitVec.testBit_toNat, readLE_getLsbD m a n i hn, decide_eq_false (Nat.not_lt.mpr hi), Bool.false_and]

theorem width_bytes_le_four (n : Width) : n.bytes ≤ 4 := by cases n <;> decide

/-- Settles O20: in range, bit `8k + j` of the value is bit `j` of byte `k`, and there is none above the last byte. -/
theorem memReadIsLittleEndian : Obligations.MemReadIsLittleEndian := by
  intro m a n
  have hn := width_bytes_le_four n
  rw [read_eq]
  constructor
  · intro hout
    exact if_neg (Nat.not_le.mpr hout)
  · intro hin
    exact ⟨_, if_pos hin, fun k hk => extractLsb'_readLE m _ _ k hn hk, readLE_toNat_lt m _ _ hn⟩

/-- Settles O21: in range, the new memory is the old one with the `n` bytes stored one by one. -/
theorem memWriteStoresExactlyItsBytes : Obligations.MemWriteStoresExactlyItsBytes := by
  intro m a n v
  rw [write_eq]
  constructor
  · intro hout
    exact if_neg (Nat.not_le.mpr hout)
  · intro hin
    exact ⟨_, if_pos hin, writeLE_size m _ v _, fun k hk => byte_writeLE_stored m _ v _ k hk hin,
      fun b hb => byte_writeLE_other m _ b v _ hb⟩

end Sys2Proof.Machine
end

section
/-! PROOFS. Decoding undoes encoding (spec/30_encoding.md R97). Every format of R71 is the R format with the immediate's
bits in some of its fields, so the fields are read off once; each format's immediate and Operand follow, and then the
instruction the Operand selects. -/

namespace Sys2Proof

/-! ### The fields of a word in the R format (R71, R72) -/

/-- A field of bits is `f` when each of its bits is. -/
theorem extract_eq_of_bits {n : Nat} (w : Word) (lo : Nat) (f : BitVec n)
    (h : ∀ i < n, w.getLsbD (lo + i) = f.getLsbD i) : w.extractLsb' lo n = f := by
  apply BitVec.eq_of_getLsbD_eq
  intro i hi
  rw [BitVec.getLsbD_extractLsb', h i hi, decide_eq_true hi, Bool.true_and]

section RFormat
variable (k : Kind) (f7 : BitVec 7) (rs2 rs1 : RegIdx) (f3 : BitVec 3) (rd : RegIdx)

@[simp] theorem opcodeField_encodeR : opcodeField (encodeR k f7 rs2 rs1 f3 rd) = k.opcode :=
  extract_eq_of_bits _ _ _ fun i hi => by grind [encodeR_getLsbD]

@[simp] theorem rdField_encodeR : rdField (encodeR k f7 rs2 rs1 f3 rd) = rd :=
  extract_eq_of_bits _ _ _ fun i hi => by grind [encodeR_getLsbD]

@[simp] theorem funct3Field_encodeR : funct3Field (encodeR k f7 rs2 rs1 f3 rd) = f3 :=
  extract_eq_of_bits _ _ _ fun i hi => by grind [encodeR_getLsbD]

@[simp] theorem rs1Field_encodeR : rs1Field (encodeR k f7 rs2 rs1 f3 rd) = rs1 :=
  extract_eq_of_bits _ _ _ fun i hi => by grind [encodeR_getLsbD]

@[simp] theorem rs2Field_encodeR : rs2Field (encodeR k f7 rs2 rs1 f3 rd) = rs2 :=
  extract_eq_of_bits _ _ _ fun i hi => by grind [encodeR_getLsbD]

@[simp] theorem funct7Field_encodeR : funct7Field (encodeR k f7 rs2 rs1 f3 rd) = f7 :=
  extract_eq_of_bits _ _ _ fun i hi => by grind [encodeR_getLsbD]

end RFormat

/-! ### The other formats as the R format (R71) -/

theorem encodeI_eq_encodeR (k : Kind) (imm : Word) (rs1 : RegIdx) (f3 : BitVec 3) (rd : RegIdx) :
    encodeI k imm rs1 f3 rd = encodeR k (imm.extractLsb' 5 7) (imm.extractLsb' 0 5) rs1 f3 rd := by
  apply BitVec.eq_of_getLsbD_eq
  intro i hi
  grind [encodeI_getLsbD, encodeR_getLsbD]

theorem encodeS_eq_encodeR (imm : Word) (rs2 rs1 : RegIdx) (f3 : BitVec 3) :
    encodeS imm rs2 rs1 f3 = encodeR .store (imm.extractLsb' 5 7) rs2 rs1 f3 (imm.extractLsb' 0 5) := rfl

theorem encodeB_eq_encodeR (imm : Word) (rs2 rs1 : RegIdx) (f3 : BitVec 3) :
    encodeB imm rs2 rs1 f3 =
      encodeR .branch (imm.extractLsb' 12 1 ++ imm.extractLsb' 5 6) rs2 rs1 f3
        (imm.extractLsb' 1 4 ++ imm.extractLsb' 11 1) := by
  apply BitVec.eq_of_getLsbD_eq
  intro i hi
  grind [encodeB_getLsbD, encodeR_getLsbD]

theorem encodeU_eq_encodeR (k : Kind) (imm : Word) (rd : RegIdx) :
    encodeU k imm rd =
      encodeR k (imm.extractLsb' 25 7) (imm.extractLsb' 20 5) (imm.extractLsb' 15 5) (imm.extractLsb' 12 3) rd := by
  apply BitVec.eq_of_getLsbD_eq
  intro i hi
  grind [encodeU_getLsbD, encodeR_getLsbD]

theorem encodeJ_eq_encodeR (imm : Word) (rd : RegIdx) :
    encodeJ imm rd = encodeR .jal (imm.extractLsb' 20 1 ++ imm.extractLsb' 5 6)
      (imm.extractLsb' 1 4 ++ imm.extractLsb' 11 1) (imm.extractLsb' 15 5) (imm.extractLsb' 12 3) rd := by
  apply BitVec.eq_of_getLsbD_eq
  intro i hi
  grind [encodeJ_getLsbD, encodeR_getLsbD]

/-! ### The immediates that fit their format (R80 to R84) -/

theorem immU_encodeU (k : Kind) (imm : Word) (rd : RegIdx) (h : immFitsU imm = true) :
    immU (encodeU k imm rd) = imm := by
  apply BitVec.eq_of_getLsbD_eq
  intro i hi
  have hz := immFitsU_bits imm h i
  grind [immU_getLsbD, encodeU_getLsbD]

theorem immJ_encodeJ (imm : Word) (rd : RegIdx) (h : immFitsJ imm = true) : immJ (encodeJ imm rd) = imm := by
  apply BitVec.eq_of_getLsbD_eq
  intro i hi
  have hz := immFitsJ_bits imm h i
  grind [immJ_getLsbD, encodeJ_getLsbD]

theorem immI_encodeI (k : Kind) (imm : Word) (rs1 : RegIdx) (f3 : BitVec 3) (rd : RegIdx) (h : immFits12 imm = true) :
    immI (encodeI k imm rs1 f3 rd) = imm := by
  apply BitVec.eq_of_getLsbD_eq
  intro i hi
  have hz := immFits12_bits imm h i
  grind [immI_getLsbD, encodeI_getLsbD]

theorem immS_encodeS (imm : Word) (rs2 rs1 : RegIdx) (f3 : BitVec 3) (h : immFits12 imm = true) :
    immS (encodeS imm rs2 rs1 f3) = imm := by
  apply BitVec.eq_of_getLsbD_eq
  intro i hi
  have hz := immFits12_bits imm h i
  grind [immS_getLsbD, encodeS_getLsbD]

theorem immB_encodeB (imm : Word) (rs2 rs1 : RegIdx) (f3 : BitVec 3) (h : immFitsB imm = true) :
    immB (encodeB imm rs2 rs1 f3) = imm := by
  apply BitVec.eq_of_getLsbD_eq
  intro i hi
  have hz := immFitsB_bits imm h i
  grind [immB_getLsbD, encodeB_getLsbD]

/-- The shift amount that the decoder reads off an R-format word is the word's `rs2` field (R89). -/
theorem shamt_immI_encodeR (k : Kind) (f7 : BitVec 7) (rs2 rs1 : RegIdx) (f3 : BitVec 3) (rd : RegIdx) :
    (immI (encodeR k f7 rs2 rs1 f3 rd)).extractLsb' 0 5 = rs2 := by
  rw [shamt_of_immI, rs2Field_encodeR]

/-! ### Decoding a word of each format, by what its Operand selects (R76, R90) -/

/-- A word with a kind's opcode decodes to the instruction that its Operand of that kind selects. -/
theorem decode_of_select {k : Kind} {w : Word} {i : Instr} (hw : opcodeField w = k.opcode)
    (hi : (Operand.ofKind k w).select = some i) : decode w = .ok i := by
  rw [decode_of_opcode k w hw, hi]

section Formats
variable {k : Kind} {f7 : BitVec 7} {rs2 rs1 : RegIdx} {f3 : BitVec 3} {rd : RegIdx} {imm : Word} {i : Instr}

theorem decode_encodeU (hk : k = .lui ∨ k = .auipc) (h : immFitsU imm = true)
    (hi : (⟨k, k.opcode, rd, 0, 0, 0, 0, imm⟩ : Operand).select = some i) : decode (encodeU k imm rd) = .ok i := by
  have himm := immU_encodeU k imm rd h
  rw [encodeU_eq_encodeR] at himm ⊢
  refine decode_of_select (opcodeField_encodeR ..) ?_
  rcases hk with rfl | rfl <;> simpa [Operand.ofKind, himm] using hi

theorem decode_encodeJ (h : immFitsJ imm = true) : decode (encodeJ imm rd) = .ok (.jal rd imm) := by
  have himm := immJ_encodeJ imm rd h
  rw [encodeJ_eq_encodeR] at himm ⊢
  exact decode_of_select (opcodeField_encodeR ..) (by simp [Operand.ofKind, Operand.select, himm])

theorem decode_encodeI (hk : k = .jalr ∨ k = .load) (h : immFits12 imm = true)
    (hi : (⟨k, k.opcode, rd, f3, rs1, 0, 0, imm⟩ : Operand).select = some i) :
    decode (encodeI k imm rs1 f3 rd) = .ok i := by
  have himm := immI_encodeI k imm rs1 f3 rd h
  rw [encodeI_eq_encodeR] at himm ⊢
  refine decode_of_select (opcodeField_encodeR ..) ?_
  rcases hk with rfl | rfl <;> simpa [Operand.ofKind, himm] using hi

/-- OP-IMM: the Operand also carries `funct7`, whose bits are the immediate's own upper ones (R76). -/
theorem decode_encodeI_opImm (h : immFits12 imm = true)
    (hi : (⟨.opImm, Kind.opImm.opcode, rd, f3, rs1, 0, imm.extractLsb' 5 7, imm⟩ : Operand).select = some i) :
    decode (encodeI .opImm imm rs1 f3 rd) = .ok i := by
  have himm := immI_encodeI .opImm imm rs1 f3 rd h
  rw [encodeI_eq_encodeR] at himm ⊢
  exact decode_of_select (opcodeField_encodeR ..) (by simpa [Operand.ofKind, himm] using hi)

/-- OP-IMM shifts: of the immediate, the selection needs the shift amount only (R89). -/
theorem decode_encodeR_shift (hi : ∀ imm : Word, imm.extractLsb' 0 5 = rs2 →
      (⟨.opImm, Kind.opImm.opcode, rd, f3, rs1, 0, f7, imm⟩ : Operand).select = some i) :
    decode (encodeR .opImm f7 rs2 rs1 f3 rd) = .ok i :=
  decode_of_select (opcodeField_encodeR ..) (by
    simpa [Operand.ofKind] using hi _ (shamt_immI_encodeR .opImm f7 rs2 rs1 f3 rd))

theorem decode_encodeS (h : immFits12 imm = true)
    (hi : (⟨.store, Kind.store.opcode, 0, f3, rs1, rs2, 0, imm⟩ : Operand).select = some i) :
    decode (encodeS imm rs2 rs1 f3) = .ok i := by
  have himm := immS_encodeS imm rs2 rs1 f3 h
  rw [encodeS_eq_encodeR] at himm ⊢
  exact decode_of_select (opcodeField_encodeR ..) (by simpa [Operand.ofKind, himm] using hi)

theorem decode_encodeB (h : immFitsB imm = true)
    (hi : (⟨.branch, Kind.branch.opcode, 0, f3, rs1, rs2, 0, imm⟩ : Operand).select = some i) :
    decode (encodeB imm rs2 rs1 f3) = .ok i := by
  have himm := immB_encodeB imm rs2 rs1 f3 h
  rw [encodeB_eq_encodeR] at himm ⊢
  exact decode_of_select (opcodeField_encodeR ..) (by simpa [Operand.ofKind, himm] using hi)

/-- No instruction of the kind OP keeps the Operand's immediate (R85). -/
theorem decode_encodeR_op
    (hi : ∀ imm : Word, (⟨.op, Kind.op.opcode, rd, f3, rs1, rs2, f7, imm⟩ : Operand).select = some i) :
    decode (encodeR .op f7 rs2 rs1 f3 rd) = .ok i :=
  decode_of_select (opcodeField_encodeR ..) (by
    simpa [Operand.ofKind] using hi (immOp (encodeR .op f7 rs2 rs1 f3 rd)))

theorem decode_encodeR_miscMem : decode (encodeR .miscMem f7 rs2 rs1 f3 rd) = .ok (.fence rd f3 rs1) :=
  decode_of_select (opcodeField_encodeR ..) (by simp [Operand.ofKind, Operand.select])

/-- No instruction of the kind SYSTEM keeps the Operand's immediate (R87). -/
theorem decode_encodeSystem
    (hi : ∀ imm : Word, (⟨.system, Kind.system.opcode, rd, f3, rs1, 0, f7, imm⟩ : Operand).select = some i) :
    decode (encodeSystem f7 rs1 f3 rd) = .ok i :=
  decode_of_select (opcodeField_encodeR ..) (by
    simpa [encodeSystem, Operand.ofKind] using hi (immSystem (encodeR .system f7 0 rs1 f3 rd)))

end Formats

/-! ### The SYSTEM rows by the lowest set bit of `funct7` (R237) -/

/-- Up to the lowest set bit, it alone is set. -/
theorem getElem_of_lowestSetBit {k : Nat} {f7 : BitVec 7} (h : lowestSetBit k f7 = true) (j : Nat) (hj : j ≤ k)
    (h7 : j < 7) : f7[j] = decide (k = j) := by
  have hbit := congrArg (fun v => BitVec.getLsbD v j) (beq_iff_eq.mp h)
  simpa only [BitVec.getLsbD_extractLsb', BitVec.getLsbD_ofNat, Nat.lt_succ_of_le hj, decide_true, Bool.true_and,
    Nat.zero_add, Nat.testBit_two_pow, BitVec.getLsbD_eq_getElem h7] using hbit

theorem funct7_ne_zero_of_lowestSetBit {k : Nat} {f7 : BitVec 7} (h : lowestSetBit k f7 = true) (hk : k < 7) :
    f7 ≠ 0#7 := by
  rintro rfl
  simpa using getElem_of_lowestSetBit h k le_rfl hk

/-- The no-op of the row with `funct3 = 000` and lowest set bit `k` of `funct7`. -/
def sysNopB (k : Nat) (f7 : BitVec 7) (rd rs1 : RegIdx) : Instr :=
  match k with
  | 0 => .sysNopB0 f7 rd rs1
  | 1 => .sysNopB1 f7 rd rs1
  | 2 => .sysNopB2 f7 rd rs1
  | 3 => .sysNopB3 f7 rd rs1
  | 4 => .sysNopB4 f7 rd rs1
  | 5 => .sysNopB5 f7 rd rs1
  | _ => .sysNopB6 f7 rd rs1

theorem selectSysNopZero_of_lowestSetBit {k : Nat} {o : Operand} (h : lowestSetBit k o.funct7 = true) (hk : k < 7) :
    o.selectSysNopZero = sysNopB k o.funct7 o.rd o.rs1 := by
  have hbits := getElem_of_lowestSetBit h
  interval_cases k <;> simp [Operand.selectSysNopZero, sysNopB, hbits]

/-- With `funct3 = 000` and a set bit in `funct7`, the word is no ECALL but the no-op of its row. -/
theorem selectSystem_of_lowestSetBit {k : Nat} {o : Operand} (h3 : o.funct3 = 0) (h : lowestSetBit k o.funct7 = true)
    (hk : k < 7) : o.selectSystem = sysNopB k o.funct7 o.rd o.rs1 := by
  rw [← selectSysNopZero_of_lowestSetBit h hk]
  simp [Operand.selectSystem, h3, funct7_ne_zero_of_lowestSetBit h hk]

theorem decode_encodeSystem_sysNopB {k : Nat} {f7 : BitVec 7} {rs1 rd : RegIdx} (h : lowestSetBit k f7 = true)
    (hk : k < 7) : decode (encodeSystem f7 rs1 0 rd) = .ok (sysNopB k f7 rd rs1) :=
  decode_encodeSystem fun _ => congrArg some (selectSystem_of_lowestSetBit rfl h hk)

/-! ### The round trip (R97) -/

/-- Constructor by constructor: the format of the word, then the instruction its fields select. -/
theorem decode_encode : ∀ i : Instr, i.wf = true → decode (encode i) = .ok i
  | .lui .., h => decode_encodeU (.inl rfl) h rfl
  | .auipc .., h => decode_encodeU (.inr rfl) h rfl
  | .jal .., h => decode_encodeJ h
  | .jalr .., h => decode_encodeI (.inl rfl) h rfl
  | .beq .., h | .bne .., h | .blt .., h | .bge .., h | .bltu .., h | .bgeu .., h => decode_encodeB h rfl
  | .lb .., h | .lh .., h | .lw .., h | .lbu .., h | .lhu .., h => decode_encodeI (.inr rfl) h rfl
  | .sb .., h | .sh .., h | .sw .., h => decode_encodeS h rfl
  | .addi .., h | .slti .., h | .sltiu .., h | .xori .., h | .ori .., h | .andi .., h => decode_encodeI_opImm h rfl
  | .slli .., _ | .srli .., _ | .srai .., _ => decode_encodeR_shift (by rintro _ rfl; rfl)
  | .add .., _ | .sub .., _ | .sll .., _ | .slt .., _ | .sltu .., _ => decode_encodeR_op fun _ => rfl
  | .xor .., _ | .srl .., _ | .sra .., _ | .or .., _ | .and .., _ => decode_encodeR_op fun _ => rfl
  | .fence .., _ => decode_encodeR_miscMem
  | .ecall .., _ => decode_encodeSystem fun _ => rfl
  | .sysNopF1 .., _ | .sysNopF2 .., _ | .sysNopF3 .., _ | .sysNopF4 .., _ => decode_encodeSystem fun _ => rfl
  | .sysNopF5 .., _ | .sysNopF6 .., _ | .sysNopF7 .., _ => decode_encodeSystem fun _ => rfl
  | .sysNopB0 .., h | .sysNopB1 .., h | .sysNopB2 .., h | .sysNopB3 .., h | .sysNopB4 .., h | .sysNopB5 .., h
  | .sysNopB6 .., h => decode_encodeSystem_sysNopB h (by decide)

namespace Machine

/-- Settles O26: each format carries its fields and its fitting immediate whole, and they select the instruction. -/
theorem decodingUndoesEncoding : Obligations.DecodingUndoesEncoding := decode_encode

end Machine

end Sys2Proof
end

section
/-! PROOFS. LUI and AUIPC (spec/40_lui_auipc.md R120, R121): the words of their rows, and what they write. -/

namespace Sys2Proof

/-! ### The words of a row of the opcode table (R90) -/

/-- A row whose mask covers the opcode and whose match holds that of a kind selects what the kind's Operand selects. -/
theorem selects_of_opcode {mask value : Word} {f : Word → Instr} (k : Kind)
    (hmask : mask.extractLsb' 0 7 = BitVec.allOnes 7) (hvalue : value.extractLsb' 0 7 = k.opcode)
    (hf : ∀ w, w &&& mask = value → (Operand.ofKind k w).select = some (f w)) : Selects mask value f := by
  intro w hw
  have hopc : opcodeField w = k.opcode := (extract_of_and_eq w mask value 0 7 hw hmask).trans hvalue
  exact decode_of_select hopc (hf w hw)

theorem select_lui (w : Word) : (Operand.ofKind .lui w).select =
    some (.lui (w.extractLsb' 7 5) (w.extractLsb' 12 20 ++ 0#12)) := by
  rw [← immU_eq_append]
  rfl

theorem select_auipc (w : Word) : (Operand.ofKind .auipc w).select =
    some (.auipc (w.extractLsb' 7 5) (w.extractLsb' 12 20 ++ 0#12)) := by
  rw [← immU_eq_append]
  rfl

/-! ### The upper immediate as a number (R80) -/

theorem toNat_upperImm (hi : BitVec 20) : (hi ++ 0#12 : Word).toNat = hi.toNat * 4096 :=
  (BitVec.toNat_append hi 0#12).trans (by simp [Nat.shiftLeft_eq])

/-- Adding an upper immediate is adding 4096 times its field, modulo `2^32` (R11). -/
theorem add_upperImm (a : Word) (hi : BitVec 20) :
    a + (hi ++ 0#12) = BitVec.ofNat 32 ((a.toNat + hi.toNat * 4096) % 2 ^ 32) := by
  apply BitVec.eq_of_toNat_eq
  rw [BitVec.toNat_add, toNat_upperImm, BitVec.toNat_ofNat, Nat.mod_mod]

namespace Machine

/-- Settles O34: the opcode alone selects LUI, and its one effect is `writeRd` of the immediate. -/
theorem luiLoadsTheUpperImmediate : Obligations.LuiLoadsTheUpperImmediate :=
  ⟨selects_of_opcode .lui (by decide) (by decide) fun w _ => select_lui w,
    fun s rd hi => writeRd_next s rd (hi ++ 0#12)⟩

/-- Settles O35: the opcode alone selects AUIPC, and its one effect is `writeRd` of the sum with the old `pc`. -/
theorem auipcAddsThePc : Obligations.AuipcAddsThePc := by
  refine ⟨selects_of_opcode .auipc (by decide) (by decide) fun w _ => select_auipc w, fun s rd hi => ?_⟩
  rw [← add_upperImm]
  exact writeRd_next s rd (s.pc + (hi ++ 0#12))

end Machine

end Sys2Proof
end

section
/-! PROOFS. LB and LBU (spec/43_load.md R161, R164): the words of their rows, their address, and the byte they load. -/

namespace Sys2Proof

/-- A row that masks `funct3` and the opcode selects what an Operand of its kind with its `funct3` selects (R90). -/
theorem selects_of_funct3 {value : Word} {f : Word → Instr} (k : Kind) (hvalue : value.extractLsb' 0 7 = k.opcode)
    (hf : ∀ w, funct3Field w = value.extractLsb' 12 3 → (Operand.ofKind k w).select = some (f w)) :
    Selects 0x0000707F value f :=
  selects_of_opcode k (by decide) hvalue fun w hw => hf w (extract_of_and_eq w _ value 12 3 hw (by decide))

/-- A word of the kind LOAD selects by its `funct3` alone, with the immediate of the I format (R82, R90). -/
theorem select_load {w : Word} {f3 : BitVec 3} (h : funct3Field w = f3) : (Operand.ofKind .load w).select =
    Operand.selectLoad ⟨.load, opcodeField w, w.extractLsb' 7 5, f3, w.extractLsb' 15 5, 0, 0,
      (w.extractLsb' 20 12).setWidth 32⟩ := by
  subst h
  rfl

namespace Machine

section Loads
variable (s : State) (rd rs1 : RegIdx) (off : BitVec 12) (ext : Word → Word)

/-- The address of a load or store, from the twelve free bits of its immediate (R88, R160, R180). -/
theorem effAddr_setWidth : effAddr s rs1 (off.setWidth 32) = s.reg rs1 + off.signExtend 32 :=
  congrArg (s.reg rs1 + ·) (imm12_setWidth off)

variable {s rs1 off} {a : Word} (ha : a = s.reg rs1 + off.signExtend 32)
include ha

/-- No alignment is asked of a byte load (R44), so it completes wherever its byte exists (R160). -/
theorem loadOp_byte_next (hin : a.toNat < s.mem.size) :
    ∃ t, loadOp .byte ext rd rs1 (off.setWidth 32) s = .next t ∧
      WritesReg s t rd (ext ((s.mem.byte a.toNat).setWidth 32)) (s.pc + 4) := by
  have haddr := (effAddr_setWidth s rs1 off).trans ha.symm
  rw [loadOp_next s .byte ext rd rs1 _ a haddr (Nat.mod_one _) hin, Width.bytes, readLE_one]
  exact writeRd_next s rd _

theorem loadOp_byte_outOfRange (hout : s.mem.size ≤ a.toNat) :
    loadOp .byte ext rd rs1 (off.setWidth 32) s = .fault (.raised .addressOutOfRange) := by
  have haddr := (effAddr_setWidth s rs1 off).trans ha.symm
  exact loadOp_outOfRange s .byte ext rd rs1 _ a haddr (Nat.mod_one _) (Nat.lt_succ_of_le hout)

end Loads

/-- Settles O41: LB and LBU are one byte load that differ in the extension only. -/
theorem byteLoads : Obligations.ByteLoads := by
  refine ⟨selects_of_funct3 .load (by decide) fun _ h3 => select_load h3,
    selects_of_funct3 .load (by decide) fun _ h3 => select_load h3,
    fun s rd rs1 off a ha => ⟨fun hin => ?_, fun hout => ?_⟩⟩
  · rw [← sext_setWidth 8 (s.mem.byte a.toNat) (by decide) (by decide)]
    exact ⟨loadOp_byte_next rd (sext 8) ha hin, loadOp_byte_next rd id ha hin⟩
  · exact ⟨loadOp_byte_outOfRange rd (sext 8) ha hout, loadOp_byte_outOfRange rd id ha hout⟩

end Machine

end Sys2Proof
end

section
/-! PROOFS. SB (spec/44_store.md R181): the words of its row, its address, and the byte it stores. -/

namespace Sys2Proof

/-- A word of the kind STORE selects by its `funct3` alone, with the immediate of the S format (R83, R90). -/
theorem select_store {w : Word} {f3 : BitVec 3} (h : funct3Field w = f3) : (Operand.ofKind .store w).select =
    Operand.selectStore ⟨.store, opcodeField w, 0, f3, w.extractLsb' 15 5, w.extractLsb' 20 5, 0,
      0#20 ++ w.extractLsb' 25 7 ++ w.extractLsb' 7 5⟩ := by
  subst h
  rw [← immS_eq_append]
  rfl

namespace Machine

section Stores
variable {s : State} {n : Width} {rs1 rs2 : RegIdx} {imm a : Word}

/-- An aligned store in range completes, and its bytes and `pc` are all that it changes (R180). -/
theorem storeOp_writesMem (haddr : effAddr s rs1 imm = a) (hal : a.toNat % n.bytes = 0)
    (hin : a.toNat + n.bytes ≤ s.mem.size) :
    ∃ t, storeOp n rs1 rs2 imm s = .next t ∧ WritesMem s t a n.bytes (s.reg rs2) :=
  ⟨_, storeOp_next s n rs1 rs2 imm a haddr hal hin, writeLE_writesMem s a (s.reg rs2) n.bytes hin⟩

end Stores

/-- Settles O44: every address is aligned for a byte (R44), so SB completes exactly where its byte exists. -/
theorem byteStore : Obligations.ByteStore := by
  refine ⟨selects_of_funct3 .store (by decide) fun _ h3 => select_store h3, fun s rs1 rs2 off a ha => ?_⟩
  have haddr : effAddr s rs1 (off.setWidth 32) = a := (effAddr_setWidth s rs1 off).trans ha.symm
  have haligned : a.toNat % Width.byte.bytes = 0 := Nat.mod_one _
  constructor
  · intro hin
    exact storeOp_writesMem haddr haligned hin
  · intro hout
    exact storeOp_outOfRange s .byte rs1 rs2 _ a haddr haligned (Nat.lt_succ_of_le hout)

end Machine

end Sys2Proof
end

section
/-! PROOFS. OP-IMM (spec/45_op_imm.md R191, R192, R194 to R196, R198, R199): the words of the rows, and the results. -/

namespace Sys2Proof

/-! ### The words of the rows (R90, R190) -/

/-- A word of the kind OP-IMM selects by its `funct3` and `funct7`, with the immediate of the I format (R82, R190). -/
theorem select_opImm {w : Word} {f7 : BitVec 7} {f3 : BitVec 3} (h7 : funct7Field w = f7) (h3 : funct3Field w = f3) :
    (Operand.ofKind .opImm w).select = Operand.selectOpImm ⟨.opImm, opcodeField w, w.extractLsb' 7 5, f3,
      w.extractLsb' 15 5, 0, f7, (w.extractLsb' 20 12).setWidth 32⟩ := by
  subst h7 h3
  rfl

/-- A row that masks `funct7`, `funct3` and the opcode selects what an Operand of its kind with these fields selects
(R90). -/
theorem selects_of_funct7_funct3 {value : Word} {f : Word → Instr} (k : Kind)
    (hvalue : value.extractLsb' 0 7 = k.opcode)
    (hf : ∀ w, funct7Field w = value.extractLsb' 25 7 → funct3Field w = value.extractLsb' 12 3 →
      (Operand.ofKind k w).select = some (f w)) : Selects 0xFE00707F value f :=
  selects_of_opcode k (by decide) hvalue fun w hw =>
    hf w (extract_of_and_eq w _ value 25 7 hw (by decide)) (extract_of_and_eq w _ value 12 3 hw (by decide))

/-- The shift amount that an OP-IMM Operand carries is `word[24:20]` (R89). -/
theorem shamt_ofKind_opImm (w : Word) : (Operand.ofKind .opImm w).shamt = w.extractLsb' 20 5 := shamt_of_immI w

theorem select_srli {w : Word} (h7 : funct7Field w = 0b0000000#7) (h3 : funct3Field w = 0b101#3) :
    (Operand.ofKind .opImm w).select =
      some (.srli (w.extractLsb' 7 5) (w.extractLsb' 15 5) (w.extractLsb' 20 5)) := by
  rw [← shamt_ofKind_opImm w]
  exact select_opImm h7 h3

theorem select_srai {w : Word} (h7 : funct7Field w = 0b0100000#7) (h3 : funct3Field w = 0b101#3) :
    (Operand.ofKind .opImm w).select =
      some (.srai (w.extractLsb' 7 5) (w.extractLsb' 15 5) (w.extractLsb' 20 5)) := by
  rw [← shamt_ofKind_opImm w]
  exact select_opImm h7 h3

namespace Machine

/-! ### The results as numbers -/

/-- Adding a sign-extended immediate is adding its signed value, modulo `2^32` (R11, R12). -/
theorem add_signExtend (a : Word) (off : BitVec 12) :
    a + off.signExtend 32 = BitVec.ofInt 32 (a.toInt + off.toInt) := by
  rw [BitVec.ofInt_add, BitVec.ofInt_toInt]
  rfl

/-- A signed comparison as a result is 1 or 0 (R11, R222). -/
theorem boolWord_ltSigned (a b : Word) : boolWord (ltSigned a b) = if a.toInt < b.toInt then 1 else 0 := by
  simp only [boolWord, ltSigned_iff]

/-- Comparing with a sign-extended immediate is comparing with its signed value (R12). -/
theorem boolWord_ltSigned_signExtend (a : Word) (off : BitVec 12) :
    boolWord (ltSigned a (off.signExtend 32)) = if a.toInt < off.toInt then 1 else 0 := by
  rw [boolWord_ltSigned, BitVec.toInt_signExtend_of_le (by decide)]

/-- An OP-IMM result `f a i` in `rd`, from the twelve free bits of the immediate (R88, R190). -/
theorem writeRd_imm12_next (s : State) (rd rs1 : RegIdx) (off : BitVec 12) (f : Word → Word → Word) :
    ∃ t, writeRd rd (f (s.reg rs1) (imm12 (off.setWidth 32))) s = .next t ∧
      WritesReg s t rd (f (s.reg rs1) (off.signExtend 32)) (s.pc + 4) := by
  rw [imm12_setWidth]
  exact writeRd_next s rd _

/-- Settles O47: ADDI and SLTI write one result each, which is the one of the signed field. -/
theorem addImmediateAndSetLessThanImmediate : Obligations.AddImmediateAndSetLessThanImmediate := by
  refine ⟨selects_of_funct3 .opImm (by decide) fun _ h3 => select_opImm rfl h3,
    selects_of_funct3 .opImm (by decide) fun _ h3 => select_opImm rfl h3, fun s rd rs1 off => ?_⟩
  rw [← add_signExtend, ← boolWord_ltSigned_signExtend]
  exact ⟨writeRd_imm12_next s rd rs1 off (· + ·), writeRd_imm12_next s rd rs1 off fun a i => boolWord (ltSigned a i)⟩

/-- Settles O49: XORI, ORI and ANDI differ in `funct3` and the bitwise operation only. -/
theorem logicImmediates : Obligations.LogicImmediates :=
  ⟨selects_of_funct3 .opImm (by decide) fun _ h3 => select_opImm rfl h3,
    selects_of_funct3 .opImm (by decide) fun _ h3 => select_opImm rfl h3,
    selects_of_funct3 .opImm (by decide) fun _ h3 => select_opImm rfl h3,
    fun s rd rs1 off => ⟨writeRd_imm12_next s rd rs1 off (· ^^^ ·), writeRd_imm12_next s rd rs1 off (· ||| ·),
      writeRd_imm12_next s rd rs1 off (· &&& ·)⟩⟩

/-- Settles O51: `funct7` tells SRLI from SRAI, and their shifts are the two quotients by `2^shamt`. -/
theorem shiftRightImmediates : Obligations.ShiftRightImmediates := by
  refine ⟨selects_of_funct7_funct3 .opImm (by decide) fun _ h7 h3 => select_srli h7 h3,
    selects_of_funct7_funct3 .opImm (by decide) fun _ h7 h3 => select_srai h7 h3, fun s rd rs1 shamt => ?_⟩
  rw [← ushiftRight_eq_ofNat, ← sshiftRight_eq_ofInt]
  exact ⟨writeRd_next s rd (s.reg rs1 >>> shamt.toNat), writeRd_next s rd ((s.reg rs1).sshiftRight shamt.toNat)⟩

end Machine

end Sys2Proof
end

section
/-! PROOFS. OP (spec/46_op.md R211 to R220): the words of the rows, and the results. -/

namespace Sys2Proof

/-- A word of the kind OP selects by its `funct7` and `funct3` (R90). -/
theorem select_op {w : Word} {f7 : BitVec 7} {f3 : BitVec 3} (h7 : funct7Field w = f7) (h3 : funct3Field w = f3) :
    (Operand.ofKind .op w).select = Operand.selectOp ⟨.op, opcodeField w, w.extractLsb' 7 5, f3,
      w.extractLsb' 15 5, w.extractLsb' 20 5, f7, immOp w⟩ := by
  subst h7 h3
  rfl

/-- An OP row fixes `funct7`, `funct3` and the opcode, and selects what an Operand with these fields selects (R90). -/
theorem selects_op {value : Word} {f : Word → Instr} (hvalue : value.extractLsb' 0 7 = Kind.op.opcode)
    (hf : ∀ w, Operand.selectOp ⟨.op, opcodeField w, w.extractLsb' 7 5, value.extractLsb' 12 3, w.extractLsb' 15 5,
      w.extractLsb' 20 5, value.extractLsb' 25 7, immOp w⟩ = some (f w)) : Selects 0xFE00707F value f :=
  selects_of_funct7_funct3 .op hvalue fun w h7 h3 => (select_op h7 h3).trans (hf w)

namespace Machine

/-! ### The results as numbers -/

/-- The sum is that of the unsigned values, modulo `2^32` (R11). -/
theorem add_eq_ofNat (a b : Word) : a + b = BitVec.ofNat 32 ((a.toNat + b.toNat) % 2 ^ 32) := by
  rw [← BitVec.toNat_add, BitVec.ofNat_toNat, BitVec.setWidth_eq]

/-- The difference is that of the signed values, modulo `2^32` (R11). -/
theorem sub_eq_ofInt (a b : Word) : a - b = BitVec.ofInt 32 (a.toInt - b.toInt) := by
  apply BitVec.eq_of_toInt_eq
  rw [BitVec.toInt_sub, BitVec.toInt_ofInt]

/-- An unsigned comparison as a result is 1 or 0 (R11, R222). -/
theorem boolWord_ltUnsigned (a b : Word) : boolWord (ltUnsigned a b) = if a.toNat < b.toNat then 1 else 0 := by
  simp only [boolWord, ltUnsigned_iff]

/-- An OP instruction completes, and its result in `rd` and `pc` are all that it changes (R210). -/
theorem opRR_next (s : State) (rd rs1 rs2 : RegIdx) (f : Word → Word → Word) :
    ∃ t, opRR f rd rs1 rs2 s = .next t ∧ WritesReg s t rd (f (s.reg rs1) (s.reg rs2)) (s.pc + 4) :=
  writeRd_next s rd _

/-- Settles O52: `funct7` tells ADD from SUB, and word addition and subtraction are those of the numbers. -/
theorem addAndSubtract : Obligations.AddAndSubtract := by
  refine ⟨selects_op (by decide) fun _ => rfl, selects_op (by decide) fun _ => rfl, fun s rd rs1 rs2 => ?_⟩
  rw [← add_eq_ofNat, ← sub_eq_ofInt]
  exact ⟨opRR_next s rd rs1 rs2 (· + ·), opRR_next s rd rs1 rs2 (· - ·)⟩

/-- Settles O53: SLT and SLTU write the result of one comparison each. -/
theorem setLessThan : Obligations.SetLessThan := by
  refine ⟨selects_op (by decide) fun _ => rfl, selects_op (by decide) fun _ => rfl, fun s rd rs1 rs2 => ?_⟩
  rw [← boolWord_ltSigned, ← boolWord_ltUnsigned]
  exact ⟨opRR_next s rd rs1 rs2 fun a b => boolWord (ltSigned a b),
    opRR_next s rd rs1 rs2 fun a b => boolWord (ltUnsigned a b)⟩

/-- Settles O54: XOR, OR and AND differ in `funct3` and the bitwise operation only. -/
theorem logicOperations : Obligations.LogicOperations :=
  ⟨selects_op (by decide) fun _ => rfl, selects_op (by decide) fun _ => rfl, selects_op (by decide) fun _ => rfl,
    fun s rd rs1 rs2 => ⟨opRR_next s rd rs1 rs2 (· ^^^ ·), opRR_next s rd rs1 rs2 (· ||| ·),
      opRR_next s rd rs1 rs2 (· &&& ·)⟩⟩

/-- Settles O55: all three shift by the low 5 bits of `x[rs2]`, and their shifts are the product and the two quotients
by that power of two. -/
theorem registerShifts : Obligations.RegisterShifts := by
  refine ⟨selects_op (by decide) fun _ => rfl, selects_op (by decide) fun _ => rfl,
    selects_op (by decide) fun _ => rfl, fun s rd rs1 rs2 => ?_⟩
  intro k
  have hk : shiftAmount (s.reg rs2) = k := shiftAmount_eq (s.reg rs2)
  rw [← shiftLeft_eq_ofNat, ← ushiftRight_eq_ofNat, ← sshiftRight_eq_ofInt, ← hk]
  exact ⟨opRR_next s rd rs1 rs2 fun a b => a <<< shiftAmount b, opRR_next s rd rs1 rs2 fun a b => a >>> shiftAmount b,
    opRR_next s rd rs1 rs2 fun a b => a.sshiftRight (shiftAmount b)⟩

end Machine

end Sys2Proof
end

section
/-! PROOFS. The SYSTEM no-ops (spec/48_system.md R237): the words of the fourteen rows, and their one effect. -/

namespace Sys2Proof

/-- A word of the kind SYSTEM selects by its `funct3` and `funct7` (R90, R235). -/
theorem select_system {w : Word} {f3 : BitVec 3} (h3 : funct3Field w = f3) : (Operand.ofKind .system w).select =
    some (Operand.selectSystem ⟨.system, opcodeField w, w.extractLsb' 7 5, f3, w.extractLsb' 15 5, 0,
      w.extractLsb' 25 7, immSystem w⟩) := by
  subst h3
  rfl

/-- A row with a nonzero `funct3` fixes `funct3` and the opcode, and `funct3` alone selects its no-op (R237). -/
theorem selects_system_of_funct3 {value : Word} {f : Word → Instr}
    (hvalue : value.extractLsb' 0 7 = Kind.system.opcode)
    (hf : ∀ w, Operand.selectSystem ⟨.system, opcodeField w, w.extractLsb' 7 5, value.extractLsb' 12 3,
      w.extractLsb' 15 5, 0, w.extractLsb' 25 7, immSystem w⟩ = f w) : Selects 0x0000707F value f :=
  selects_of_funct3 .system hvalue fun w h3 => (select_system h3).trans (congrArg some (hf w))

/-- The row for bit `k` with `funct3 = 000` masks the opcode, `funct3` and `funct7` up to bit `k`. -/
theorem sysNopB_row_mask (k : Nat) (hk : k < 7) :
    (sysNopB k 0 0 0).row.mask.extractLsb' 0 7 = BitVec.allOnes 7 ∧
    (sysNopB k 0 0 0).row.mask.extractLsb' 12 3 = BitVec.allOnes 3 ∧
    (sysNopB k 0 0 0).row.mask.extractLsb' 25 (k + 1) = BitVec.allOnes (k + 1) := by
  decide +revert

/-- It asks for the opcode SYSTEM, for `funct3 = 000`, and for bit `k` alone among the bits of `funct7` up to it. -/
theorem sysNopB_row_value (k : Nat) (hk : k < 7) :
    (sysNopB k 0 0 0).row.value.extractLsb' 0 7 = Kind.system.opcode ∧
    (sysNopB k 0 0 0).row.value.extractLsb' 12 3 = 0 ∧
    (sysNopB k 0 0 0).row.value.extractLsb' 25 (k + 1) = BitVec.ofNat (k + 1) (2 ^ k) := by
  decide +revert

/-- The low bits of `funct7` that `lowestSetBit` compares are bits of the word. -/
theorem lowestSetBit_funct7Field (k : Nat) (hk : k < 7) (w : Word) :
    lowestSetBit k (funct7Field w) = (w.extractLsb' 25 (k + 1) == BitVec.ofNat (k + 1) (2 ^ k)) := by
  rw [lowestSetBit, funct7Field, ← BitVec.setWidth_eq_extractLsb' (by omega), BitVec.setWidth_extractLsb'_of_le hk]

/-- A word of that row has bit `k` as the lowest set bit of its `funct7`, which selects the row's no-op (R237). -/
theorem selects_sysNopB (k : Nat) (hk : k < 7) : Selects (sysNopB k 0 0 0).row.mask (sysNopB k 0 0 0).row.value
    fun w => sysNopB k (w.extractLsb' 25 7) (w.extractLsb' 7 5) (w.extractLsb' 15 5) := by
  obtain ⟨hmaskOpcode, hmask3, hmask7⟩ := sysNopB_row_mask k hk
  obtain ⟨hopcode, hfunct3, hfunct7⟩ := sysNopB_row_value k hk
  refine selects_of_opcode .system hmaskOpcode hopcode fun w hw => ?_
  have h3 : funct3Field w = 0 := (extract_of_and_eq w _ _ 12 3 hw hmask3).trans hfunct3
  have h7 : lowestSetBit k (funct7Field w) = true := by
    rw [lowestSetBit_funct7Field k hk, extract_of_and_eq w _ _ 25 (k + 1) hw hmask7, hfunct7, beq_self_eq_true]
  exact congrArg some (selectSystem_of_lowestSetBit (o := Operand.ofKind .system w) h3 h7 hk)

namespace Machine

/-- Settles O58: `funct3`, or else the lowest set bit of `funct7`, selects the row, and all fourteen no-ops are
`continueNext`. -/
theorem otherSystemWordsOnlyAdvancePc : Obligations.OtherSystemWordsOnlyAdvancePc := by
  refine ⟨selects_system_of_funct3 (by decide) fun _ => rfl, selects_system_of_funct3 (by decide) fun _ => rfl,
    selects_system_of_funct3 (by decide) fun _ => rfl, selects_system_of_funct3 (by decide) fun _ => rfl,
    selects_system_of_funct3 (by decide) fun _ => rfl, selects_system_of_funct3 (by decide) fun _ => rfl,
    selects_system_of_funct3 (by decide) fun _ => rfl, selects_sysNopB 0 (by decide), selects_sysNopB 1 (by decide),
    selects_sysNopB 2 (by decide), selects_sysNopB 3 (by decide), selects_sysNopB 4 (by decide),
    selects_sysNopB 5 (by decide), selects_sysNopB 6 (by decide), fun s funct7 rd rs1 i hi => ?_⟩
  have hexec : exec i s = continueNext s := by
    fin_cases hi <;> rfl
  rw [hexec]
  exact continueNext_next s

end Machine

end Sys2Proof
end

section
/-! PROOFS. The invariant (spec/10_state.md R30, R32, spec/48_system.md R236): it holds after reset, and every step
keeps it; and the two facts of the state behind it, the register file (R20) and the one form of a memory's content. -/

namespace Sys2Proof.Machine

/-- The invariant, part by part. -/
theorem inv_iff (s : State) : s.inv = true ↔
    s.mem.wf = true ∧ memSizeLegal s.mem.size = true ∧ (s.halted = none ∨ s.halted = some (s.reg 10)) := by
  simp [State.inv, and_assoc]

/-! ### What keeps the invariant -/

/-- While the run goes on, an instruction keeps the invariant: a store keeps the canonical form and the size of memory,
only ECALL records a halt, and it records `x[10]`. -/
theorem exec_keeps_inv {i : Instr} {s t : State} (hinv : s.inv = true) (hrun : s.halted = none)
    (hexec : exec i s = .next t) : t.inv = true := by
  obtain ⟨hwf, hsize, -⟩ := (inv_iff s).mp hinv
  rw [inv_iff]
  obtain ⟨-, rd, v, p, -, rfl⟩ | ⟨-, -, p, rfl⟩ | ⟨-, -, a, v, n, rfl⟩ | ⟨-, -, rfl⟩ := exec_next_cases s t i hexec
  · exact ⟨by simpa using hwf, by simpa using hsize, .inl (by simpa using hrun)⟩
  · exact ⟨hwf, hsize, .inl hrun⟩
  · exact ⟨writeLE_wf s.mem a v n hwf, by simpa using hsize, .inl hrun⟩
  · exact ⟨hwf, hsize, .inr rfl⟩

/-- Settles O12: a step repeats the final state of an ended run, or is one instruction of a run that goes on. -/
theorem stepKeepsTheInvariant : Obligations.StepKeepsTheInvariant := by
  intro s t hinv hstep
  obtain ⟨-, rfl⟩ | ⟨hrun, w, i, -, -, hexec⟩ := step_next_cases s t hstep
  · exact hinv
  · exact exec_keeps_inv hinv hrun hexec

/-! ### Reset -/

/-- The loader keeps the canonical form, so reset meets the invariant when the size is legal (R9, R32). -/
theorem resetWith_inv {p : Params} (hvalid : p.valid = true) : (State.resetWith p).inv = true := by
  refine (inv_iff _).mpr ⟨?_, ?_, .inl rfl⟩ <;> rw [resetWith_mem]
  · exact ofImage_wf p.memSize p.image
  · rw [ofImage_size]
    exact hvalid

/-- Settles O4: the loader builds memory by writes of bytes below `MEM_SIZE`, and no halt is recorded yet. -/
theorem resetMeetsTheInvariantForAllParameters : Obligations.ResetMeetsTheInvariantForAllParameters :=
  fun _ hvalid => resetWith_inv hvalid

/-- Settles O2: the parameters that the model chose, written out. -/
theorem resetIsTheChosenParameters : Obligations.ResetIsTheChosenParameters := ⟨rfl, rfl⟩

/-- Settles O3: `State.reset` is the reset state of parameters that R9 admits. -/
theorem resetMeetsTheInvariant : Obligations.ResetMeetsTheInvariant :=
  resetWith_inv (p := Config.params) (by decide)

/-! ### Registers and memory -/

/-- Settles O19: one bank of registers without aliasing. -/
theorem writtenRegisterReadsBack : Obligations.WrittenRegisterReadsBack :=
  fun s i r v hi => ⟨reg_setReg_same s i v hi, fun hr => reg_setReg_other s i r v hr⟩

/-- Settles O22: two lists of cells in canonical form for one size that read the same are the same list. -/
theorem canonicalMemoriesAreEqualData : Obligations.CanonicalMemoriesAreEqualData := by
  rintro ⟨size, cells⟩ ⟨size', cells'⟩ hwf hwf' hsize hbytes
  obtain rfl : size = size' := hsize
  rw [cells_eq_of_lookup_eq size 0 cells cells' hwf hwf' hbytes]

end Sys2Proof.Machine
end

section
/-! PROOFS. The decoder (spec/30_encoding.md): what it rejects (R78, R91, R92): a word outside the eleven opcodes,
and one whose fields select no instruction of its kind. -/

namespace Sys2Proof

/-! ### The kind of a word (R73, R77, R78) -/

/-- The decoder's answer is the Operand of the one kind whose opcode the word has. -/
theorem decodeOperand_eq_some {w : Word} {o : Operand} (h : decodeOperand w = some o) :
    ∃ k : Kind, opcodeField w = k.opcode ∧ o = Operand.ofKind k w := by
  obtain ⟨k, hk, rfl⟩ := Option.map_eq_some_iff.mp h
  exact ⟨k, (opcode_of_ofOpcode _ _ hk).symm, rfl⟩

/-- The eleven opcodes as numbers (R73). -/
theorem ofOpcode_eq_none_iff (opc : BitVec 7) : Kind.ofOpcode opc = none ↔
    opc.toNat ∉ [0x03, 0x0F, 0x13, 0x17, 0x23, 0x33, 0x37, 0x63, 0x67, 0x6F, 0x73] := by
  decide +revert

theorem decode_eq_unsupportedOpcode_iff (w : Word) :
    decode w = .error .unsupportedOpcode ↔ Kind.ofOpcode (opcodeField w) = none := by
  cases hk : Kind.ofOpcode (opcodeField w) with
  | none => simp [decode, decodeOperand, hk]
  | some k =>
    rw [decode_of_opcode k w (opcode_of_ofOpcode _ _ hk).symm]
    cases (Operand.ofKind k w).select <;> simp

theorem decode_eq_unsupportedFunct_iff (w : Word) : decode w = .error .unsupportedFunct ↔
    ∃ k : Kind, opcodeField w = k.opcode ∧ (Operand.ofKind k w).select = none := by
  cases hk : Kind.ofOpcode (opcodeField w) with
  | none =>
    have hno : ∀ k : Kind, opcodeField w ≠ k.opcode := by
      intro k hw
      rw [hw, ofOpcode_opcode] at hk
      cases hk
    simp [(decode_eq_unsupportedOpcode_iff w).mpr hk, hno]
  | some k =>
    have hw := (opcode_of_ofOpcode _ _ hk).symm
    have honly : ∀ l : Kind, opcodeField w = l.opcode → l = k := by
      intro l hl
      rw [hl, ofOpcode_opcode] at hk
      exact Option.some.inj hk
    rw [decode_of_opcode k w hw]
    cases hsel : (Operand.ofKind k w).select with
    | none => simpa using ⟨k, hw, hsel⟩
    | some i =>
      simp only [reduceCtorEq, false_iff]
      rintro ⟨l, hl, hnone⟩
      obtain rfl := honly l hl
      rw [hsel] at hnone
      cases hnone

/-! ### The fields that select nothing (R92) -/

theorem funct3_mem (f3 : BitVec 3) : f3 ∈ ([0, 1, 2, 3, 4, 5, 6, 7] : List (BitVec 3)) := by
  decide +revert

section
variable (o : Operand)

/-- BRANCH (R147). -/
theorem selectBranch_eq_none_iff : o.selectBranch = none ↔ o.funct3.toNat ∈ [2, 3] := by
  obtain ⟨k, opc, rd, f3, rs1, rs2, f7, imm⟩ := o
  have hmem := funct3_mem f3
  fin_cases hmem <;> simp [Operand.selectBranch]

/-- LOAD (R166). -/
theorem selectLoad_eq_none_iff : o.selectLoad = none ↔ o.funct3.toNat ∈ [3, 6, 7] := by
  obtain ⟨k, opc, rd, f3, rs1, rs2, f7, imm⟩ := o
  have hmem := funct3_mem f3
  fin_cases hmem <;> simp [Operand.selectLoad]

/-- STORE (R184). -/
theorem selectStore_eq_none_iff : o.selectStore = none ↔ o.funct3.toNat ∈ [3, 4, 5, 6, 7] := by
  obtain ⟨k, opc, rd, f3, rs1, rs2, f7, imm⟩ := o
  have hmem := funct3_mem f3
  fin_cases hmem <;> simp [Operand.selectStore]

/-- The right shifts of OP-IMM (R200). -/
theorem selectShiftRight_eq_none_iff : o.selectShiftRight = none ↔ o.funct7.toNat ∉ [0x00, 0x20] := by
  unfold Operand.selectShiftRight
  split
  next h => simp [h]
  next h => simp [h]
  next h0 h32 =>
    have h0' : o.funct7.toNat ≠ 0 := fun h => h0 (BitVec.eq_of_toNat_eq h)
    have h32' : o.funct7.toNat ≠ 32 := fun h => h32 (BitVec.eq_of_toNat_eq h)
    simp [h0', h32']

/-- OP-IMM: the right shifts only (R200). -/
theorem selectOpImm_eq_none_iff :
    o.selectOpImm = none ↔ o.funct3.toNat = 5 ∧ o.funct7.toNat ∉ [0x00, 0x20] := by
  rw [← selectShiftRight_eq_none_iff]
  obtain ⟨k, opc, rd, f3, rs1, rs2, f7, imm⟩ := o
  have hmem := funct3_mem f3
  fin_cases hmem <;> simp [Operand.selectOpImm]

/-- OP: all but the ten pairs (R221). -/
theorem selectOp_eq_none_iff : o.selectOp = none ↔
    ¬(o.funct7.toNat = 0x00 ∨ o.funct7.toNat = 0x20 ∧ o.funct3.toNat ∈ [0, 5]) := by
  obtain ⟨k, opc, rd, f3, rs1, rs2, f7, imm⟩ := o
  have hmem := funct3_mem f3
  by_cases h0 : f7 = 0
  · subst h0
    fin_cases hmem <;> simp [Operand.selectOp]
  · have h0' : f7.toNat ≠ 0 := fun h => h0 (BitVec.eq_of_toNat_eq h)
    by_cases h32 : f7 = 0x20
    · subst h32
      fin_cases hmem <;> simp [Operand.selectOp]
    · have h32' : f7.toNat ≠ 32 := fun h => h32 (BitVec.eq_of_toNat_eq h)
      fin_cases hmem <;> simp_all [Operand.selectOp]

end

/-- The words of each kind that select nothing, by their own fields: the table of R92. -/
theorem select_ofKind_eq_none_iff (k : Kind) (w : Word) : (Operand.ofKind k w).select = none ↔
    (k = .branch ∧ (funct3Field w).toNat ∈ [2, 3]) ∨ (k = .load ∧ (funct3Field w).toNat ∈ [3, 6, 7]) ∨
    (k = .store ∧ (funct3Field w).toNat ∈ [3, 4, 5, 6, 7]) ∨
    (k = .opImm ∧ (funct3Field w).toNat = 5 ∧ (funct7Field w).toNat ∉ [0x00, 0x20]) ∨
    (k = .op ∧ ¬((funct7Field w).toNat = 0x00 ∨ (funct7Field w).toNat = 0x20 ∧ (funct3Field w).toNat ∈ [0, 5])) := by
  cases k with
  | branch => exact (selectBranch_eq_none_iff (Operand.ofKind .branch w)).trans (by simp [Operand.ofKind])
  | load => exact (selectLoad_eq_none_iff (Operand.ofKind .load w)).trans (by simp [Operand.ofKind])
  | store => exact (selectStore_eq_none_iff (Operand.ofKind .store w)).trans (by simp [Operand.ofKind])
  | opImm => exact (selectOpImm_eq_none_iff (Operand.ofKind .opImm w)).trans (by simp [Operand.ofKind])
  | op => exact (selectOp_eq_none_iff (Operand.ofKind .op w)).trans (by simp [Operand.ofKind])
  | lui | auipc | jal | jalr | miscMem | system => simp [Operand.select]

theorem toNat_opcodeField_eq_iff (k : Kind) (w : Word) :
    (opcodeField w).toNat = k.opcode.toNat ↔ opcodeField w = k.opcode := BitVec.toNat_inj

namespace Machine

/-- Settles O30: the decoder looks the opcode up, and looks at nothing else. -/
theorem unsupportedOpcodeExactlyOutsideTheEleven : Obligations.UnsupportedOpcodeExactlyOutsideTheEleven :=
  fun w => (decode_eq_unsupportedOpcode_iff w).trans (ofOpcode_eq_none_iff (opcodeField w))

/-- Settles O31: a word is rejected by the selection of its kind, and five kinds have one that can reject. -/
theorem unsupportedFunctExactlyByTheTable : Obligations.UnsupportedFunctExactlyByTheTable := by
  intro w
  simp only [decode_eq_unsupportedFunct_iff, select_ofKind_eq_none_iff, and_or_left, exists_or, and_left_comm,
    exists_eq_left, ← toNat_opcodeField_eq_iff]
  exact Iff.rfl

end Machine

end Sys2Proof
end

section
/-! PROOFS. What the decoder's Operand carries (spec/30_encoding.md R76, R80 to R87), that decoded instructions are
well-formed, and that their encoding is the word they came from in every bit the Operand carries (R97). -/

namespace Sys2Proof

/-! ### The Operand's fields (R76) and immediate (R80 to R87) -/

theorem immI_eq_append (w : Word) : immI w = 0#20 ++ w.extractLsb' 20 12 :=
  BitVec.setWidth_eq_append (x := w.extractLsb' 20 12) (w := 32) (by decide)

theorem immOp_eq_append (w : Word) : immOp w = 0#27 ++ w.extractLsb' 20 5 :=
  BitVec.setWidth_eq_append (x := w.extractLsb' 20 5) (w := 32) (by decide)

theorem immSystem_eq_append (w : Word) : immSystem w = 0#27 ++ w.extractLsb' 15 5 :=
  BitVec.setWidth_eq_append (x := w.extractLsb' 15 5) (w := 32) (by decide)

namespace Machine

/-- Settles O32: the Operand is that of the kind found for the opcode, and each kind has its row in R76's table. -/
theorem operandCarriesItsKindsFields : Obligations.OperandCarriesItsKindsFields := by
  intro w o ho
  obtain ⟨k, hw, rfl⟩ := decodeOperand_eq_some ho
  rw [ofKind_kind]
  refine ⟨?_, hw.symm, ?_⟩
  · cases k <;> rfl
  · cases k <;> exact ⟨rfl, rfl, rfl, rfl, rfl⟩

/-- Settles O33: each kind has one format, whose fields are put together as R80 to R87 say. -/
theorem operandImmediateIsReconstructed : Obligations.OperandImmediateIsReconstructed := by
  intro w o ho
  obtain ⟨k, -, rfl⟩ := decodeOperand_eq_some ho
  rw [ofKind_kind]
  cases k with
  | lui | auipc => simpa [Operand.ofKind] using immU_eq_append w
  | jal => simpa [Operand.ofKind] using immJ_eq_append w
  | jalr | load | opImm => simpa [Operand.ofKind] using immI_eq_append w
  | store => simpa [Operand.ofKind] using immS_eq_append w
  | branch => simpa [Operand.ofKind] using immB_eq_append w
  | op => simpa [Operand.ofKind] using immOp_eq_append w
  | miscMem => simp [Operand.ofKind]
  | system => simpa [Operand.ofKind] using immSystem_eq_append w

end Machine

/-! ### Decoded instructions are well-formed (R80 to R84, R237) -/

section
variable {o : Operand} {i : Instr}

theorem selectBranch_wf (himm : immFitsB o.imm = true) (h : o.selectBranch = some i) : i.wf = true := by
  unfold Operand.selectBranch at h
  split at h <;> cases h <;> exact himm

theorem selectLoad_wf (himm : immFits12 o.imm = true) (h : o.selectLoad = some i) : i.wf = true := by
  unfold Operand.selectLoad at h
  split at h <;> cases h <;> exact himm

theorem selectStore_wf (himm : immFits12 o.imm = true) (h : o.selectStore = some i) : i.wf = true := by
  unfold Operand.selectStore at h
  split at h <;> cases h <;> exact himm

theorem selectShiftRight_wf (h : o.selectShiftRight = some i) : i.wf = true := by
  unfold Operand.selectShiftRight at h
  split at h <;> cases h <;> rfl

theorem selectOpImm_wf (himm : immFits12 o.imm = true) (h : o.selectOpImm = some i) : i.wf = true := by
  unfold Operand.selectOpImm at h
  split at h
  case h_7 => cases h; rfl
  case h_8 => exact selectShiftRight_wf h
  all_goals cases h; exact himm

theorem selectOp_wf (h : o.selectOp = some i) : i.wf = true := by
  unfold Operand.selectOp at h
  split at h <;> cases h <;> rfl

end

/-- A nonzero `funct7` has a lowest set bit. -/
theorem exists_lowestSetBit (f7 : BitVec 7) (h : f7 ≠ 0) : ∃ k < 7, lowestSetBit k f7 = true := by
  decide +revert

theorem sysNopB_wf {k : Nat} {f7 : BitVec 7} {rd rs1 : RegIdx} (hk : k < 7) (h : lowestSetBit k f7 = true) :
    (sysNopB k f7 rd rs1).wf = true := by
  interval_cases k <;> exact h

/-- With `funct3 = 000` and a nonzero `funct7`, a SYSTEM word is the no-op of the lowest set bit (R237). -/
theorem selectSysNopZero_cases {o : Operand} (h : o.funct7 ≠ 0) :
    ∃ k < 7, lowestSetBit k o.funct7 = true ∧ o.selectSysNopZero = sysNopB k o.funct7 o.rd o.rs1 := by
  obtain ⟨k, hk, hbit⟩ := exists_lowestSetBit o.funct7 h
  exact ⟨k, hk, hbit, selectSysNopZero_of_lowestSetBit hbit hk⟩

theorem selectSystem_wf (o : Operand) : o.selectSystem.wf = true := by
  unfold Operand.selectSystem
  split
  case h_8 =>
    split
    · rfl
    next h7 =>
      obtain ⟨k, hk, hbit, hsel⟩ := selectSysNopZero_cases h7
      rw [hsel]
      exact sysNopB_wf hk hbit
  all_goals rfl

/-- Each kind's format carries no other bit of the immediate than those that fit it. -/
theorem select_wf {k : Kind} {w : Word} {i : Instr} (h : (Operand.ofKind k w).select = some i) : i.wf = true := by
  cases k with
  | lui | auipc => cases h; exact immU_fits w
  | jal => cases h; exact immJ_fits w
  | jalr => cases h; exact immI_fits w
  | branch => exact selectBranch_wf (o := Operand.ofKind .branch w) (immB_fits w) h
  | load => exact selectLoad_wf (o := Operand.ofKind .load w) (immI_fits w) h
  | store => exact selectStore_wf (o := Operand.ofKind .store w) (immS_fits w) h
  | opImm => exact selectOpImm_wf (o := Operand.ofKind .opImm w) (immI_fits w) h
  | op => exact selectOp_wf h
  | miscMem => cases h; rfl
  | system =>
    rw [select_system rfl] at h
    obtain rfl := Option.some.inj h
    exact selectSystem_wf _

theorem decode_wf {w : Word} {i : Instr} (h : decode w = .ok i) : i.wf = true := by
  obtain ⟨k, -, hsel⟩ := decode_ok_cases w i h
  exact select_wf hsel

/-! ### A word put together again from its fields (R71) -/

section
variable {k : Kind} {w : Word}

theorem opcode_getLsbD (hw : opcodeField w = k.opcode) (i : Nat) (hi : i < 7) : k.opcode.getLsbD i = w.getLsbD i := by
  rw [← hw, opcodeField, BitVec.getLsbD_extractLsb', Nat.zero_add, decide_eq_true hi, Bool.true_and]

/-- The R format holds the whole word in its fields, with the opcode of the word's kind. -/
theorem encodeR_fields (hw : opcodeField w = k.opcode) :
    encodeR k (funct7Field w) (rs2Field w) (rs1Field w) (funct3Field w) (rdField w) = w := by
  apply BitVec.eq_of_getLsbD_eq
  intro i hi
  have hopc := opcode_getLsbD hw i
  grind [encodeR_getLsbD, funct7Field, rs2Field, rs1Field, funct3Field, rdField]

/-- The bits of `imm[11:5]` in the I and S formats are the `funct7` field (R82, R83). -/
theorem extract_immI (w : Word) : (immI w).extractLsb' 5 7 = funct7Field w :=
  extract_eq_of_bits _ _ _ fun i hi => by grind [immI_getLsbD, funct7Field]

theorem encodeI_fields (hw : opcodeField w = k.opcode) :
    encodeI k (immI w) (rs1Field w) (funct3Field w) (rdField w) = w := by
  rw [encodeI_eq_encodeR, extract_immI, shamt_of_immI, encodeR_fields hw]

theorem encodeS_fields (hw : opcodeField w = Kind.store.opcode) :
    encodeS (immS w) (rs2Field w) (rs1Field w) (funct3Field w) = w := by
  apply BitVec.eq_of_getLsbD_eq
  intro i hi
  have hopc := opcode_getLsbD hw i
  grind [encodeS_getLsbD, immS_getLsbD, rs2Field, rs1Field, funct3Field]

theorem encodeB_fields (hw : opcodeField w = Kind.branch.opcode) :
    encodeB (immB w) (rs2Field w) (rs1Field w) (funct3Field w) = w := by
  apply BitVec.eq_of_getLsbD_eq
  intro i hi
  have hopc := opcode_getLsbD hw i
  grind [encodeB_getLsbD, immB_getLsbD, rs2Field, rs1Field, funct3Field]

theorem encodeU_fields (hw : opcodeField w = k.opcode) : encodeU k (immU w) (rdField w) = w := by
  apply BitVec.eq_of_getLsbD_eq
  intro i hi
  have hopc := opcode_getLsbD hw i
  grind [encodeU_getLsbD, immU_getLsbD, rdField]

theorem encodeJ_fields (hw : opcodeField w = Kind.jal.opcode) : encodeJ (immJ w) (rdField w) = w := by
  apply BitVec.eq_of_getLsbD_eq
  intro i hi
  have hopc := opcode_getLsbD hw i
  grind [encodeJ_getLsbD, immJ_getLsbD, rdField]

/-- MISC-MEM: without `word[31:20]` (R86). -/
theorem encodeR_miscMem_fields (hw : opcodeField w = Kind.miscMem.opcode) :
    encodeR .miscMem 0 0 (rs1Field w) (funct3Field w) (rdField w) = w &&& 0x000FFFFF := by
  conv_rhs => rw [← encodeR_fields hw]
  apply BitVec.eq_of_getLsbD_eq
  intro i hi
  rw [BitVec.getLsbD_and, encodeR_getLsbD, encodeR_getLsbD]
  interval_cases i <;> simp

/-- SYSTEM: without `word[24:20]` (R87). -/
theorem encodeSystem_fields (hw : opcodeField w = Kind.system.opcode) :
    encodeSystem (funct7Field w) (rs1Field w) (funct3Field w) (rdField w) = w &&& 0xFE0FFFFF := by
  conv_rhs => rw [← encodeR_fields hw]
  apply BitVec.eq_of_getLsbD_eq
  intro i hi
  rw [BitVec.getLsbD_and, encodeSystem, encodeR_getLsbD, encodeR_getLsbD]
  interval_cases i <;> simp

end

/-! ### The encoding of the instruction that an Operand selects (R97) -/

section
variable {o : Operand} {i : Instr}

theorem encode_of_selectBranch (h : o.selectBranch = some i) :
    encode i = encodeB o.imm o.rs2 o.rs1 o.funct3 ∧ i.carried = 0xFFFFFFFF := by
  unfold Operand.selectBranch at h
  split at h <;> cases h <;> rename_i h3 <;> rw [h3] <;> exact ⟨rfl, rfl⟩

theorem encode_of_selectLoad (h : o.selectLoad = some i) :
    encode i = encodeI .load o.imm o.rs1 o.funct3 o.rd ∧ i.carried = 0xFFFFFFFF := by
  unfold Operand.selectLoad at h
  split at h <;> cases h <;> rename_i h3 <;> rw [h3] <;> exact ⟨rfl, rfl⟩

theorem encode_of_selectStore (h : o.selectStore = some i) :
    encode i = encodeS o.imm o.rs2 o.rs1 o.funct3 ∧ i.carried = 0xFFFFFFFF := by
  unfold Operand.selectStore at h
  split at h <;> cases h <;> rename_i h3 <;> rw [h3] <;> exact ⟨rfl, rfl⟩

theorem encode_of_selectOp (h : o.selectOp = some i) :
    encode i = encodeR .op o.funct7 o.rs2 o.rs1 o.funct3 o.rd ∧ i.carried = 0xFFFFFFFF := by
  unfold Operand.selectOp at h
  split at h <;> cases h <;> rename_i h7 h3 <;> rw [h7, h3] <;> exact ⟨rfl, rfl⟩

theorem encode_of_selectShiftRight (h : o.selectShiftRight = some i) :
    encode i = encodeR .opImm o.funct7 o.shamt o.rs1 0b101 o.rd ∧ i.carried = 0xFFFFFFFF := by
  unfold Operand.selectShiftRight at h
  split at h <;> cases h <;> rename_i h7 <;> rw [h7] <;> exact ⟨rfl, rfl⟩

/-- OP-IMM: a shift has the I format too, as its `funct7` and shift amount are the immediate's bits (R89). -/
theorem encode_of_selectOpImm (hf7 : o.imm.extractLsb' 5 7 = o.funct7) (h : o.selectOpImm = some i) :
    encode i = encodeI .opImm o.imm o.rs1 o.funct3 o.rd ∧ i.carried = 0xFFFFFFFF := by
  unfold Operand.selectOpImm at h
  split at h
  case h_7 h3 =>
    cases h
    rw [h3, encodeI_eq_encodeR, hf7]
    exact ⟨rfl, rfl⟩
  case h_8 =>
    have h3 : o.funct3 = 0b101#3 := by
      have hmem := funct3_mem o.funct3
      simp_all
    rw [h3, encodeI_eq_encodeR, hf7]
    exact encode_of_selectShiftRight h
  all_goals
    cases h
    rename_i h3
    rw [h3]
    exact ⟨rfl, rfl⟩

theorem encode_sysNopB {k : Nat} (hk : k < 7) (f7 : BitVec 7) (rd rs1 : RegIdx) :
    encode (sysNopB k f7 rd rs1) = encodeSystem f7 rs1 0 rd ∧ (sysNopB k f7 rd rs1).carried = 0xFE0FFFFF := by
  interval_cases k <;> exact ⟨rfl, rfl⟩

theorem encode_selectSystem (o : Operand) :
    encode o.selectSystem = encodeSystem o.funct7 o.rs1 o.funct3 o.rd ∧ o.selectSystem.carried = 0xFE0FFFFF := by
  unfold Operand.selectSystem
  split
  case h_8 =>
    have h3 : o.funct3 = 0 := by
      have hmem := funct3_mem o.funct3
      simp_all
    rw [h3]
    split
    next h7 =>
      rw [h7]
      exact ⟨rfl, rfl⟩
    next h7 =>
      obtain ⟨k, hk, -, hsel⟩ := selectSysNopZero_cases h7
      rw [hsel]
      exact encode_sysNopB hk _ _ _
  all_goals
    rename_i h3
    rw [h3]
    exact ⟨rfl, rfl⟩

end

/-- Where the Operand carries the whole word, an encoding with all the word's fields is the word. -/
theorem encode_eq_and_carried {i : Instr} {v w : Word} (h : encode i = v ∧ i.carried = 0xFFFFFFFF) (hv : v = w) :
    encode i = w &&& i.carried := by
  obtain ⟨henc, hcar⟩ := h
  rw [henc, hcar, hv]
  exact BitVec.and_allOnes.symm

/-- By the format of its kind, a decoded word is the encoding of its instruction in the bits the Operand carries. -/
theorem encode_of_select {k : Kind} {w : Word} {i : Instr} (hw : opcodeField w = k.opcode)
    (h : (Operand.ofKind k w).select = some i) : encode i = w &&& i.carried := by
  cases k with
  | lui | auipc => cases h; exact encode_eq_and_carried ⟨rfl, rfl⟩ (encodeU_fields hw)
  | jal => cases h; exact encode_eq_and_carried ⟨rfl, rfl⟩ (encodeJ_fields hw)
  | jalr => cases h; exact encode_eq_and_carried ⟨rfl, rfl⟩ (encodeI_fields hw)
  | branch => exact encode_eq_and_carried (encode_of_selectBranch (o := Operand.ofKind .branch w) h) (encodeB_fields hw)
  | load => exact encode_eq_and_carried (encode_of_selectLoad (o := Operand.ofKind .load w) h) (encodeI_fields hw)
  | store => exact encode_eq_and_carried (encode_of_selectStore (o := Operand.ofKind .store w) h) (encodeS_fields hw)
  | opImm =>
    exact encode_eq_and_carried (encode_of_selectOpImm (o := Operand.ofKind .opImm w) (extract_immI w) h)
      (encodeI_fields hw)
  | op => exact encode_eq_and_carried (encode_of_selectOp (o := Operand.ofKind .op w) h) (encodeR_fields hw)
  | miscMem => cases h; exact encodeR_miscMem_fields hw
  | system =>
    rw [select_system rfl] at h
    obtain rfl := Option.some.inj h
    obtain ⟨henc, hcar⟩ := encode_selectSystem ⟨.system, opcodeField w, rdField w, funct3Field w, rs1Field w, 0,
      funct7Field w, immSystem w⟩
    exact henc.trans ((encodeSystem_fields hw).trans (congrArg (w &&& ·) hcar.symm))

namespace Machine

/-- Settles O27: kind by kind, the immediate fits its format, and a SYSTEM no-op is that of the lowest set bit. -/
theorem decodedInstructionsAreWellFormed : Obligations.DecodedInstructionsAreWellFormed := fun _ _ h => decode_wf h

/-- Settles O28: the word is put together again from the fields of its format. -/
theorem encodingUndoesDecoding : Obligations.EncodingUndoesDecoding := by
  intro w i h
  obtain ⟨k, hw, hsel⟩ := decode_ok_cases w i h
  exact encode_of_select hw hsel

end Machine

end Sys2Proof
end

section
/-! PROOFS. JAL, JALR and the branches (spec/41_jal_jalr.md, spec/42_branch.md): the words of their rows, and where they
go. -/

namespace Sys2Proof

theorem select_jal (w : Word) : (Operand.ofKind .jal w).select = some (.jal (w.extractLsb' 7 5)
    (0#11 ++ w.extractLsb' 31 1 ++ w.extractLsb' 12 8 ++ w.extractLsb' 20 1 ++ w.extractLsb' 21 10 ++ 0#1)) := by
  rw [← immJ_eq_append]
  rfl

/-- A word of the kind BRANCH selects by its `funct3` alone, with the immediate of the B format (R84, R90). -/
theorem select_branch {w : Word} {f3 : BitVec 3} (h : funct3Field w = f3) : (Operand.ofKind .branch w).select =
    Operand.selectBranch ⟨.branch, opcodeField w, 0, f3, w.extractLsb' 15 5, w.extractLsb' 20 5, 0,
      0#19 ++ w.extractLsb' 31 1 ++ w.extractLsb' 7 1 ++ w.extractLsb' 25 6 ++ w.extractLsb' 8 4 ++ 0#1⟩ := by
  subst h
  rw [← immB_eq_append]
  rfl

namespace Machine

/-- An offset added to `pc` is added to its signed value, modulo `2^32` (R11). -/
theorem add_ofInt (a : Word) (z : Int) : a + BitVec.ofInt 32 z = BitVec.ofInt 32 (a.toInt + z) := by
  rw [BitVec.ofInt_add, BitVec.ofInt_toInt]

/-- Settles O36: the opcode alone selects JAL, and its offset is twice the signed number of its free bits. -/
theorem jalLinksAndJumps : Obligations.JalLinksAndJumps := by
  refine ⟨selects_of_opcode .jal (by decide) (by decide) fun w _ => select_jal w, fun s rd off => ?_⟩
  rw [← add_ofInt, ← jalOffset_even]
  exact linkAndJump_next s rd _

/-- Settles O37: the target is computed in the old state, before the link is written. -/
theorem jalrLinksAndJumps : Obligations.JalrLinksAndJumps := by
  refine ⟨selects_of_opcode .jalr (by decide) (by decide) fun w _ => rfl, fun s rd rs1 funct3 off => ?_⟩
  rw [← effAddr_setWidth]
  exact linkAndJump_next s rd _

theorem not_ltSigned_iff (a b : Word) : (!ltSigned a b) = true ↔ a.toInt ≥ b.toInt := by
  rw [Bool.not_eq_true', ← Bool.not_eq_true, ltSigned_iff, not_lt]

theorem not_ltUnsigned_iff (a b : Word) : (!ltUnsigned a b) = true ↔ a.toNat ≥ b.toNat := by
  rw [Bool.not_eq_true', ← Bool.not_eq_true, ltUnsigned_iff, not_lt]

/-- A branch goes to its even 13-bit offset when its condition holds, and on when not (R140). -/
theorem branchIf_even_next (s : State) {taken : Bool} {P : Prop} [Decidable P] (h : taken = true ↔ P)
    (off : BitVec 12) : ∃ t, branchIf taken (0#19 ++ off ++ 0#1) s = .next t ∧
      WritesPc s t (if P then BitVec.ofInt 32 (s.pc.toInt + 2 * off.toInt) else s.pc + 4) := by
  simp only [← h]
  rw [← add_ofInt, ← branchOffset_even]
  exact branchIf_next s taken _

/-- Settles O38: BEQ and BNE differ in `funct3` and in which outcome of the comparison is taken. -/
theorem equalityBranches : Obligations.EqualityBranches := by
  refine ⟨selects_of_funct3 .branch (by decide) fun _ h3 => select_branch h3,
    selects_of_funct3 .branch (by decide) fun _ h3 => select_branch h3, fun s rs1 rs2 off => ?_⟩
  intro target
  rw [← ite_not (s.reg rs1 = s.reg rs2) target (s.pc + 4)]
  exact ⟨branchIf_even_next s beq_iff_eq off, branchIf_even_next s bne_iff_ne off⟩

/-- Settles O39: BLT and BGE take the two outcomes of the signed comparison. -/
theorem signedBranches : Obligations.SignedBranches :=
  ⟨selects_of_funct3 .branch (by decide) fun _ h3 => select_branch h3,
    selects_of_funct3 .branch (by decide) fun _ h3 => select_branch h3, fun s rs1 rs2 off =>
      ⟨branchIf_even_next s (ltSigned_iff _ _) off, branchIf_even_next s (not_ltSigned_iff _ _) off⟩⟩

/-- Settles O40: BLTU and BGEU take the two outcomes of the unsigned comparison. -/
theorem unsignedBranches : Obligations.UnsignedBranches :=
  ⟨selects_of_funct3 .branch (by decide) fun _ h3 => select_branch h3,
    selects_of_funct3 .branch (by decide) fun _ h3 => select_branch h3, fun s rs1 rs2 off =>
      ⟨branchIf_even_next s (ltUnsigned_iff _ _) off, branchIf_even_next s (not_ltUnsigned_iff _ _) off⟩⟩

end Machine

end Sys2Proof
end

section
/-! PROOFS. Halfword and word accesses (spec/43_load.md R162, R163, R165, spec/44_store.md R182, R183), and that LW
reads back what SW has stored (spec/20_memory.md R55). -/

namespace Sys2Proof.Machine

section Loads
variable {s : State} {n : Width} {rs1 : RegIdx} {imm a : Word}

/-- An aligned load in range completes, and its value in `rd` and `pc` are all that it changes (R160). -/
theorem loadOp_writesReg (rd : RegIdx) (ext : Word → Word) (haddr : effAddr s rs1 imm = a)
    (hal : a.toNat % n.bytes = 0) (hin : a.toNat + n.bytes ≤ s.mem.size) :
    ∃ t, loadOp n ext rd rs1 imm s = .next t ∧ WritesReg s t rd (ext (s.mem.readLE a.toNat n.bytes)) (s.pc + 4) := by
  rw [loadOp_next s n ext rd rs1 imm a haddr hal hin]
  exact writeRd_next s rd _

end Loads

/-- Settles O42: LH and LHU are one halfword load that differ in the extension only. -/
theorem halfwordLoads : Obligations.HalfwordLoads := by
  refine ⟨selects_of_funct3 .load (by decide) fun _ h3 => select_load h3,
    selects_of_funct3 .load (by decide) fun _ h3 => select_load h3, fun s rd rs1 off a ha => ?_⟩
  have haddr : effAddr s rs1 (off.setWidth 32) = a := (effAddr_setWidth s rs1 off).trans ha.symm
  refine ⟨fun hal hin => ?_, fun hmis => ?_, fun hal hout => ?_⟩
  · rw [← sext_setWidth 16 (s.mem.byte (a.toNat + 1) ++ s.mem.byte a.toNat) (by decide) (by decide), ← readLE_two]
    exact ⟨loadOp_writesReg (n := .half) rd (sext 16) haddr hal hin, loadOp_writesReg (n := .half) rd id haddr hal hin⟩
  · exact ⟨loadOp_misaligned s .half (sext 16) rd rs1 _ a haddr hmis,
      loadOp_misaligned s .half id rd rs1 _ a haddr hmis⟩
  · exact ⟨loadOp_outOfRange s .half (sext 16) rd rs1 _ a haddr hal hout,
      loadOp_outOfRange s .half id rd rs1 _ a haddr hal hout⟩

/-- Settles O43: LW is the load of four bytes without an extension. -/
theorem wordLoad : Obligations.WordLoad := by
  refine ⟨selects_of_funct3 .load (by decide) fun _ h3 => select_load h3, fun s rd rs1 off a ha => ?_⟩
  have haddr : effAddr s rs1 (off.setWidth 32) = a := (effAddr_setWidth s rs1 off).trans ha.symm
  refine ⟨fun hal hin => ?_, fun hmis => ?_, fun hal hout => ?_⟩
  · rw [← readLE_four]
    exact loadOp_writesReg (n := .word) rd id haddr hal hin
  · exact loadOp_misaligned s .word id rd rs1 _ a haddr hmis
  · exact loadOp_outOfRange s .word id rd rs1 _ a haddr hal hout

/-- Settles O45: SH is the store of two bytes. -/
theorem halfwordStore : Obligations.HalfwordStore := by
  refine ⟨selects_of_funct3 .store (by decide) fun _ h3 => select_store h3, fun s rs1 rs2 off a ha => ?_⟩
  have haddr : effAddr s rs1 (off.setWidth 32) = a := (effAddr_setWidth s rs1 off).trans ha.symm
  exact ⟨fun hal hin => storeOp_writesMem (n := .half) haddr hal hin,
    fun hmis => storeOp_misaligned s .half rs1 rs2 _ a haddr hmis,
    fun hal hout => storeOp_outOfRange s .half rs1 rs2 _ a haddr hal hout⟩

/-- Settles O46: SW is the store of four bytes. -/
theorem wordStore : Obligations.WordStore := by
  refine ⟨selects_of_funct3 .store (by decide) fun _ h3 => select_store h3, fun s rs1 rs2 off a ha => ?_⟩
  have haddr : effAddr s rs1 (off.setWidth 32) = a := (effAddr_setWidth s rs1 off).trans ha.symm
  exact ⟨fun hal hin => storeOp_writesMem (n := .word) haddr hal hin,
    fun hmis => storeOp_misaligned s .word rs1 rs2 _ a haddr hmis,
    fun hal hout => storeOp_outOfRange s .word rs1 rs2 _ a haddr hal hout⟩

/-! ### A stored word reads back -/

/-- A next state of SW has the word of `x[rs2]` at an aligned address in range, and the old registers. -/
theorem exec_sw_next_cases {s t : State} {rs1 rs2 : RegIdx} {off : BitVec 12} {a : Word}
    (ha : s.reg rs1 + off.signExtend 32 = a) (h : exec (.sw rs1 rs2 (off.setWidth 32)) s = .next t) :
    a.toNat % 4 = 0 ∧ a.toNat + 4 ≤ s.mem.size ∧
      t = (s.setMem (s.mem.writeLE a.toNat (s.reg rs2) 4)).setPc (s.pc + 4) := by
  obtain ⟨hin, hal, ht⟩ := storeOp_next_cases s t .word rs1 rs2 _ h
  rw [effAddr_setWidth, ha] at hin hal ht
  exact ⟨hal, hin, ht⟩

/-- Settles O23: the load passes the tests that the store has passed, and reads the bytes it has stored. -/
theorem loadReturnsTheStoredWord : Obligations.LoadReturnsTheStoredWord := by
  intro s t rs1 rs2 rd base off off' hstore hsame
  obtain ⟨hal, hin, ht⟩ := exec_sw_next_cases rfl hstore
  have hmem : t.mem = s.mem.writeLE (s.reg rs1 + off.signExtend 32).toNat (s.reg rs2) 4 := by rw [ht]; rfl
  have haddr : effAddr t base (off'.setWidth 32) = s.reg rs1 + off.signExtend 32 := by
    rw [effAddr_setWidth, ht]
    exact hsame
  have hword : t.mem.readLE (s.reg rs1 + off.signExtend 32).toNat 4 = s.reg rs2 := by
    rw [hmem]
    exact readLE_writeLE s.mem _ (s.reg rs2) hin
  rw [← hword]
  exact loadOp_writesReg (n := .word) rd id haddr hal (by rw [hmem, writeLE_size]; exact hin)

end Sys2Proof.Machine
end

section
/-! PROOFS. SLTIU, SLLI, FENCE and ECALL (spec/45_op_imm.md R193, R197, spec/47_misc_mem.md, spec/48_system.md R236). -/

namespace Sys2Proof

/-- The shift amount of SLLI is `word[24:20]`, and its `funct7` is carried along unexamined (R89, R197). -/
theorem select_slli {w : Word} (h3 : funct3Field w = 0b001#3) : (Operand.ofKind .opImm w).select =
    some (.slli (w.extractLsb' 7 5) (w.extractLsb' 15 5) (w.extractLsb' 25 7) (w.extractLsb' 20 5)) := by
  rw [← shamt_ofKind_opImm w]
  exact select_opImm rfl h3

namespace Machine

/-- Settles O48: the comparison is unsigned, of the immediate that `imm12` has sign-extended. -/
theorem setLessThanImmediateUnsigned : Obligations.SetLessThanImmediateUnsigned := by
  refine ⟨selects_of_funct3 .opImm (by decide) fun _ h3 => select_opImm rfl h3, fun s rd rs1 off => ?_⟩
  rw [← boolWord_ltUnsigned]
  exact writeRd_imm12_next s rd rs1 off fun a i => boolWord (ltUnsigned a i)

/-- Settles O50: the shift is the product by `2^shamt`. -/
theorem shiftLeftImmediate : Obligations.ShiftLeftImmediate := by
  refine ⟨selects_of_funct3 .opImm (by decide) fun _ h3 => select_slli h3, fun s rd rs1 funct7 shamt => ?_⟩
  rw [← shiftLeft_eq_ofNat]
  exact writeRd_next s rd _

/-- Settles O56: the opcode alone selects FENCE, and it is `continueNext`. -/
theorem fenceOnlyAdvancesPc : Obligations.FenceOnlyAdvancesPc :=
  ⟨selects_of_opcode .miscMem (by decide) (by decide) fun _ _ => rfl, fun s _ _ _ => continueNext_next s⟩

/-- Settles O57: `funct7` and `funct3` select ECALL, and `halt` changes nothing but the record of the halt. -/
theorem ecallHaltsWithA0 : Obligations.EcallHaltsWithA0 := by
  refine ⟨selects_of_funct7_funct3 .system (by decide) fun w h7 h3 => ?_, fun s rd rs1 => ?_⟩
  · have h7' : w.extractLsb' 25 7 = 0 := h7
    rw [select_system h3, h7']
    rfl
  · exact ⟨_, rfl, rfl, rfl, fun _ => rfl, rfl, fun _ => rfl⟩

end Machine

end Sys2Proof
end

section
/-! PROOFS. The decoder and the opcode table (spec/30_encoding.md R90, spec/opcode_table.json), and the words that
the spec writes out (spec/95_test_vectors.md). -/

namespace Sys2Proof

open Machine

/-! ### A decoded word is of its instruction's row -/

namespace Laws.EncodedRow

/-- The family `EncodedRow`, for all constructors. -/
theorem holds (i : Instr) : Statement i := by
  cases i
  exacts [lui _ _, auipc _ _, jal _ _, jalr _ _ _ _, beq _ _ _, bne _ _ _, blt _ _ _, bge _ _ _, bltu _ _ _, bgeu _ _ _,
    lb _ _ _, lh _ _ _, lw _ _ _, lbu _ _ _, lhu _ _ _, sb _ _ _, sh _ _ _, sw _ _ _, addi _ _ _, slti _ _ _,
    sltiu _ _ _, xori _ _ _, ori _ _ _, andi _ _ _, slli _ _ _ _, srli _ _ _, srai _ _ _, add _ _ _, sub _ _ _,
    sll _ _ _, slt _ _ _, sltu _ _ _, xor _ _ _, srl _ _ _, sra _ _ _, or _ _ _, and _ _ _, fence _ _ _, ecall _ _,
    sysNopF1 _ _ _, sysNopF2 _ _ _, sysNopF3 _ _ _, sysNopF4 _ _ _, sysNopF5 _ _ _, sysNopF6 _ _ _, sysNopF7 _ _ _,
    sysNopB0 _ _ _, sysNopB1 _ _ _, sysNopB2 _ _ _, sysNopB3 _ _ _, sysNopB4 _ _ _, sysNopB5 _ _ _, sysNopB6 _ _ _]

end Laws.EncodedRow

theorem carried_and_mask (i : Instr) : i.carried &&& i.row.mask = i.row.mask := by
  cases i <;> simp only [Instr.carried, Instr.row] <;> decide

/-- No row looks at a bit that the Operand drops. -/
theorem admits_of_decode {w : Word} {i : Instr} (h : decode w = .ok i) : i.row.admits w = true := by
  have hrow := Laws.EncodedRow.holds i (decode_wf h)
  rw [encodingUndoesDecoding w i h] at hrow
  rw [Row.admits, beq_iff_eq] at hrow ⊢
  rwa [BitVec.and_assoc, carried_and_mask] at hrow

/-! ### A word of a row decodes to an instruction of that row -/

/-- The words of an instruction's row decode to instructions of that row, as the statement of its family says. -/
theorem selects_row (i : Instr) : ∃ f, Selects i.row.mask i.row.value f ∧ ∀ w, (f w).row = i.row := by
  obtain ⟨hlui, -⟩ := luiLoadsTheUpperImmediate
  obtain ⟨hauipc, -⟩ := auipcAddsThePc
  obtain ⟨hjal, -⟩ := jalLinksAndJumps
  obtain ⟨hjalr, -⟩ := jalrLinksAndJumps
  obtain ⟨hbeq, hbne, -⟩ := equalityBranches
  obtain ⟨hblt, hbge, -⟩ := signedBranches
  obtain ⟨hbltu, hbgeu, -⟩ := unsignedBranches
  obtain ⟨hlb, hlbu, -⟩ := byteLoads
  obtain ⟨hlh, hlhu, -⟩ := halfwordLoads
  obtain ⟨hlw, -⟩ := wordLoad
  obtain ⟨hsb, -⟩ := byteStore
  obtain ⟨hsh, -⟩ := halfwordStore
  obtain ⟨hsw, -⟩ := wordStore
  obtain ⟨haddi, hslti, -⟩ := addImmediateAndSetLessThanImmediate
  obtain ⟨hsltiu, -⟩ := setLessThanImmediateUnsigned
  obtain ⟨hxori, hori, handi, -⟩ := logicImmediates
  obtain ⟨hslli, -⟩ := shiftLeftImmediate
  obtain ⟨hsrli, hsrai, -⟩ := shiftRightImmediates
  obtain ⟨hadd, hsub, -⟩ := addAndSubtract
  obtain ⟨hslt, hsltu, -⟩ := setLessThan
  obtain ⟨hxor, hor, hand, -⟩ := logicOperations
  obtain ⟨hsll, hsrl, hsra, -⟩ := registerShifts
  obtain ⟨hfence, -⟩ := fenceOnlyAdvancesPc
  obtain ⟨hecall, -⟩ := ecallHaltsWithA0
  obtain ⟨hf1, hf2, hf3, hf4, hf5, hf6, hf7, hb0, hb1, hb2, hb3, hb4, hb5, hb6, -⟩ := otherSystemWordsOnlyAdvancePc
  cases i
  exacts [⟨_, hlui, fun _ => rfl⟩, ⟨_, hauipc, fun _ => rfl⟩, ⟨_, hjal, fun _ => rfl⟩, ⟨_, hjalr, fun _ => rfl⟩,
    ⟨_, hbeq, fun _ => rfl⟩, ⟨_, hbne, fun _ => rfl⟩, ⟨_, hblt, fun _ => rfl⟩, ⟨_, hbge, fun _ => rfl⟩,
    ⟨_, hbltu, fun _ => rfl⟩, ⟨_, hbgeu, fun _ => rfl⟩, ⟨_, hlb, fun _ => rfl⟩, ⟨_, hlh, fun _ => rfl⟩,
    ⟨_, hlw, fun _ => rfl⟩, ⟨_, hlbu, fun _ => rfl⟩, ⟨_, hlhu, fun _ => rfl⟩, ⟨_, hsb, fun _ => rfl⟩,
    ⟨_, hsh, fun _ => rfl⟩, ⟨_, hsw, fun _ => rfl⟩, ⟨_, haddi, fun _ => rfl⟩, ⟨_, hslti, fun _ => rfl⟩,
    ⟨_, hsltiu, fun _ => rfl⟩, ⟨_, hxori, fun _ => rfl⟩, ⟨_, hori, fun _ => rfl⟩, ⟨_, handi, fun _ => rfl⟩,
    ⟨_, hslli, fun _ => rfl⟩, ⟨_, hsrli, fun _ => rfl⟩, ⟨_, hsrai, fun _ => rfl⟩, ⟨_, hadd, fun _ => rfl⟩,
    ⟨_, hsub, fun _ => rfl⟩, ⟨_, hsll, fun _ => rfl⟩, ⟨_, hslt, fun _ => rfl⟩, ⟨_, hsltu, fun _ => rfl⟩,
    ⟨_, hxor, fun _ => rfl⟩, ⟨_, hsrl, fun _ => rfl⟩, ⟨_, hsra, fun _ => rfl⟩, ⟨_, hor, fun _ => rfl⟩,
    ⟨_, hand, fun _ => rfl⟩, ⟨_, hfence, fun _ => rfl⟩, ⟨_, hecall, fun _ => rfl⟩, ⟨_, hf1, fun _ => rfl⟩,
    ⟨_, hf2, fun _ => rfl⟩, ⟨_, hf3, fun _ => rfl⟩, ⟨_, hf4, fun _ => rfl⟩, ⟨_, hf5, fun _ => rfl⟩,
    ⟨_, hf6, fun _ => rfl⟩, ⟨_, hf7, fun _ => rfl⟩, ⟨_, hb0, fun _ => rfl⟩, ⟨_, hb1, fun _ => rfl⟩,
    ⟨_, hb2, fun _ => rfl⟩, ⟨_, hb3, fun _ => rfl⟩, ⟨_, hb4, fun _ => rfl⟩, ⟨_, hb5, fun _ => rfl⟩,
    ⟨_, hb6, fun _ => rfl⟩]

theorem decode_of_admits {w : Word} {r : Row} (hr : r ∈ opcodeTable) (hw : r.admits w = true) :
    ∃ i, decode w = .ok i ∧ i.row = r := by
  obtain ⟨i, -, rfl⟩ := List.mem_map.mp hr
  obtain ⟨f, hsel, hrow⟩ := selects_row i
  exact ⟨f w, hsel w (beq_iff_eq.mp hw), hrow w⟩

theorem row_mem_opcodeTable (i : Instr) : i.row ∈ opcodeTable := by
  cases i <;> exact of_decide_eq_true rfl

namespace Machine

/-- Settles O29: decoding is a function, so a word of two rows would be of one instruction with both. -/
theorem decoderAgreesWithTheOpcodeTable : Obligations.DecoderAgreesWithTheOpcodeTable := by
  refine ⟨fun w i h => admits_of_decode h, fun w r hr hw => decode_of_admits hr hw, fun w r q hr hq hrw hqw => ?_,
    row_mem_opcodeTable, rfl⟩
  obtain ⟨i, hi, rfl⟩ := decode_of_admits hr hrw
  obtain ⟨j, hj, rfl⟩ := decode_of_admits hq hqw
  rw [hi] at hj
  rw [Except.ok.inj hj]

/-- Settles O25: each word is decoded as it stands. -/
theorem writtenOutWordsDecode : Obligations.WrittenOutWordsDecode := by
  unfold Obligations.WrittenOutWordsDecode
  decide

end Machine

end Sys2Proof
end

section
/-! PROOFS. The step (spec/49_step.md): the fetch, the order of the outcomes (spec/60_exceptions.md R273), which
instructions can fault (R268, R269), and the final state of a run (R249). -/

namespace Sys2Proof.Machine

/-! ### The fetch (R247) -/

section Fetch
variable {s : State} (hin : s.pc.toNat + 4 ≤ s.mem.size)

theorem fetch_outOfRange (hout : s.mem.size < s.pc.toNat + 4) : fetch s = .error .pcOutOfRange := by
  rw [fetch_eq, if_neg (Nat.not_le.mpr hout)]

include hin

theorem fetch_misaligned (hmis : s.pc.toNat % 4 ≠ 0) : fetch s = .error (.raised .addressMisaligned) := by
  rw [fetch_eq, if_pos hin, if_neg hmis]

theorem fetch_ok (hal : s.pc.toNat % 4 = 0) : fetch s = .ok (wordAtPc s) := by
  rw [fetch_eq, if_pos hin, if_pos hal]

end Fetch

/-- Settles O5: the two tests, in their order, and the read that passes them. -/
theorem fetchTestsRangeThenAlignment : Obligations.FetchTestsRangeThenAlignment :=
  fun _ => ⟨fetch_outOfRange, fetch_misaligned, fetch_ok⟩

/-- A word stored at `pc` is the word at `pc` (R41, R42). -/
theorem wordAtPc_of_writeLE {s : State} {m : Memory} {v : Word} (hmem : s.mem = m.writeLE s.pc.toNat v 4)
    (hin : s.pc.toNat + 4 ≤ m.size) : wordAtPc s = v :=
  calc wordAtPc s = s.mem.readLE s.pc.toNat 4 := (readLE_four _ _).symm
    _ = (m.writeLE s.pc.toNat v 4).readLE s.pc.toNat 4 := by rw [hmem]
    _ = v := readLE_writeLE m _ v hin

/-- Settles O24: the store has stored at the new `pc`, and the fetch passes the tests that the store has passed. -/
theorem storeIsSeenByTheNextFetch : Obligations.StoreIsSeenByTheNextFetch := by
  intro s t rs1 rs2 off hstore haddr
  obtain ⟨hal, hin, rfl⟩ := exec_sw_next_cases haddr hstore
  rw [fetch_ok (by simpa using hin) hal]
  exact congrArg Except.ok (wordAtPc_of_writeLE rfl hin)

/-! ### A step, by what the fetch and the decoder answer (R248) -/

section Step
variable {s : State} (hrun : s.halted = none)
include hrun

theorem step_of_fetch_error {f : Fault} (hfetch : fetch s = .error f) : step s = .fault f := by
  simp only [step_eq s hrun, hfetch]

variable (hin : s.pc.toNat + 4 ≤ s.mem.size) (hal : s.pc.toNat % 4 = 0)
include hin hal

theorem step_of_unsupportedOpcode (hdec : decode (wordAtPc s) = .error .unsupportedOpcode) :
    step s = .fault (.raised .unsupportedOpcode) := by
  simp only [step_eq s hrun, fetch_ok hin hal, hdec]

theorem step_of_unsupportedFunct (hdec : decode (wordAtPc s) = .error .unsupportedFunct) :
    step s = .fault (.raised .unsupportedFunct) := by
  simp only [step_eq s hrun, fetch_ok hin hal, hdec]

theorem step_of_decode {i : Instr} (hdec : decode (wordAtPc s) = .ok i) : step s = exec i s := by
  simp only [step_eq s hrun, fetch_ok hin hal, hdec]

end Step

/-- Settles O6: nothing is added around the meaning of the decoded instruction. -/
theorem stepRunsTheDecodedInstruction : Obligations.StepRunsTheDecodedInstruction :=
  fun _ _ hrun hin hal hdec => step_of_decode hrun hin hal hdec

/-- The 32 bits of a word, as the table numbers them, are the word. -/
theorem tableWord_toNat (w : Word) : tableWord 32 w.toNat = w := by
  rw [tableWord, Nat.mod_eq_of_lt w.isLt, BitVec.ofNat_toNat, BitVec.setWidth_eq]

/-- Settles O11: the placed word is the word at `pc`. -/
theorem placedWordIsTheNextInstruction : Obligations.PlacedWordIsTheNextInstruction := by
  intro s w i hin hal hdec
  have hmem : (s.withFetchWord 32 w.toNat).mem = s.mem.writeLE s.pc.toNat w 4 := by
    rw [State.withFetchWord, tableWord_toNat]
  have hword : wordAtPc (s.withFetchWord 32 w.toNat) = w := wordAtPc_of_writeLE hmem hin
  refine step_of_decode (s := s.withFetchWord 32 w.toNat) rfl ?_ hal (by rw [hword, hdec])
  rw [hmem, writeLE_size]
  exact hin

/-! ### A run that has ended (R249) -/

theorem step_of_halted {s : State} {v : Word} (h : s.halted = some v) : step s = .next s := by
  simp [step, State.runEnded, h]

theorem run_succ_of_step (M : Host.Core) {s s' : M.State} (h : M.step s = .next s') (k : Nat) :
    M.run (k + 1) s = M.run k s' := by
  simp [Host.Core.run, h]

/-- Settles O10: each further step answers the same state again. -/
theorem haltIsFinal : Obligations.HaltIsFinal := by
  intro s v k h
  have hstep : core.step s = .next s := step_of_halted h
  induction k with
  | zero => rfl
  | succ k ih => exact (run_succ_of_step core hstep k).trans ih

/-! ### Which instructions can fault (R268, R269) -/

/-- How a load or store of `n` bytes at `a` ends that leads to `t` when nothing is wrong with `a`: it tests alignment,
then range (R48). -/
def accessOutcome (s : State) (a : Word) (n : Width) (t : State) : Result :=
  if a.toNat % n.bytes = 0 then
    if a.toNat + n.bytes ≤ s.mem.size then .next t else .fault (.raised .addressOutOfRange)
  else .fault (.raised .addressMisaligned)

/-- An instruction is a load or store, or one that makes no data access and completes in every state. -/
inductive ExecShape (i : Instr) : Prop
  | access (n : Width) (rs1 : RegIdx) (imm : Word)
      (hexec : ∀ s, ∃ t, exec i s = accessOutcome s (effAddr s rs1 imm) n t)
      (haccess : ∀ s, i.access s = some (baseOffset s rs1 imm, n.bytes)) (hwf : i.wf = immFits12 imm)
  | noAccess (hexec : ∀ s, ∃ t, exec i s = .next t) (haccess : ∀ s, i.access s = none)

theorem execShape (i : Instr) : ExecShape i := by
  cases i with
  | lb | lbu => exact .access .byte _ _ (fun s => ⟨_, loadOp_eq s .byte _ _ _ _ _ rfl⟩) (fun _ => rfl) rfl
  | lh | lhu => exact .access .half _ _ (fun s => ⟨_, loadOp_eq s .half _ _ _ _ _ rfl⟩) (fun _ => rfl) rfl
  | lw => exact .access .word _ _ (fun s => ⟨_, loadOp_eq s .word _ _ _ _ _ rfl⟩) (fun _ => rfl) rfl
  | sb => exact .access .byte _ _ (fun s => ⟨_, storeOp_eq s .byte _ _ _ _ rfl⟩) (fun _ => rfl) rfl
  | sh => exact .access .half _ _ (fun s => ⟨_, storeOp_eq s .half _ _ _ _ rfl⟩) (fun _ => rfl) rfl
  | sw => exact .access .word _ _ (fun s => ⟨_, storeOp_eq s .word _ _ _ _ rfl⟩) (fun _ => rfl) rfl
  | beq | bne | blt | bge | bltu | bgeu =>
    exact .noAccess (fun s => (branchIf_next s _ _).imp fun _ h => h.1) fun _ => rfl
  | _ => exact .noAccess (fun _ => ⟨_, rfl⟩) fun _ => rfl

/-- Everything an instruction can answer: a next state, or a fault of its data access, where a byte is never misaligned
(R44). -/
theorem exec_outcome (i : Instr) (s : State) : (∃ t, exec i s = .next t) ∨
    ∃ a n kind, i.access s = some (a, n) ∧ exec i s = .fault (.raised kind) ∧
      (kind = .addressMisaligned ∧ n ≠ 1 ∨ kind = .addressOutOfRange) := by
  obtain ⟨n, rs1, imm, hexec, haccess, -⟩ | ⟨hexec, -⟩ := execShape i
  · obtain ⟨t, ht⟩ := hexec s
    rw [ht, haccess, accessOutcome]
    split
    · split
      · exact .inl ⟨t, rfl⟩
      · exact .inr ⟨_, _, _, rfl, rfl, .inr rfl⟩
    next hmis =>
      have hn : n.bytes ≠ 1 := by
        intro h1
        rw [h1, Nat.mod_one] at hmis
        exact hmis rfl
      exact .inr ⟨_, _, _, rfl, rfl, .inl ⟨rfl, hn⟩⟩
  · exact .inl (hexec s)

/-- Settles O9: only a data access can fault. -/
theorem selectedInstructionsFaultOnlyAsLoadsOrStores : Obligations.SelectedInstructionsFaultOnlyAsLoadsOrStores := by
  intro i s f hf
  obtain ⟨t, ht⟩ | ⟨a, n, kind, haccess, hfault, hkind⟩ := exec_outcome i s
  · rw [ht] at hf
    cases hf
  · rw [hfault] at hf
    cases hf
    exact ⟨a, n, haccess, hkind.imp (fun h => ⟨congrArg _ h.1, h.2⟩) (congrArg _)⟩

theorem exec_ne_refused (i : Instr) (s : State) (r : Refusal) : exec i s ≠ .refused r := by
  obtain ⟨t, ht⟩ | ⟨a, n, kind, -, hfault, -⟩ := exec_outcome i s
  · simp [ht]
  · simp [hfault]

/-- Settles O8: an instruction completes or faults, and so does a step, which else repeats the final state. -/
theorem nothingIsRefused : Obligations.NothingIsRefused := by
  refine ⟨exec_ne_refused, fun s r => ?_⟩
  cases hh : s.halted with
  | some v => simp [step_of_halted hh]
  | none =>
    rw [step_eq s hh]
    split
    · simp
    · split
      · simp
      · simp
      · exact exec_ne_refused _ s r

/-! ### The faults of a data access, in their order (R48, R273) -/

section Access
variable {s : State} {i : Instr} {a : Word} {n : Nat}

/-- For a 12-bit immediate the effective address is the one that the statements name (R88). -/
theorem effAddr_eq_baseOffset (s : State) (rs1 : RegIdx) {imm : Word} (h : immFits12 imm = true) :
    effAddr s rs1 imm = baseOffset s rs1 imm :=
  congrArg (s.reg rs1 + ·) (imm12_eq imm h)

/-- A well-formed instruction with a data access tests alignment, then range, and then completes. -/
theorem exec_of_access (hwf : i.wf = true) (haccess : i.access s = some (a, n)) :
    (a.toNat % n ≠ 0 → exec i s = .fault (.raised .addressMisaligned)) ∧
    (a.toNat % n = 0 → s.mem.size < a.toNat + n → exec i s = .fault (.raised .addressOutOfRange)) ∧
    (a.toNat % n = 0 → a.toNat + n ≤ s.mem.size → ∃ t, exec i s = .next t) := by
  obtain ⟨w, rs1, imm, hexec, hacc, hfits⟩ | ⟨-, hacc⟩ := execShape i
  · rw [hacc] at haccess
    cases haccess
    obtain ⟨t, ht⟩ := hexec s
    rw [ht, effAddr_eq_baseOffset s rs1 (hfits.symm.trans hwf)]
    exact ⟨fun hmis => if_neg hmis, fun hal hout => (if_pos hal).trans (if_neg (Nat.not_le.mpr hout)),
      fun hal hin => ⟨t, (if_pos hal).trans (if_pos hin)⟩⟩
  · rw [hacc] at haccess
    cases haccess

theorem exec_of_accessOk (hwf : i.wf = true) (hok : i.accessOk s) : ∃ t, exec i s = .next t := by
  obtain hnext | ⟨a, n, kind, haccess, -, -⟩ := exec_outcome i s
  · exact hnext
  · obtain ⟨-, -, hnext⟩ := exec_of_access hwf haccess
    obtain ⟨hal, hin⟩ := hok a n haccess
    exact hnext hal hin

end Access

/-- Settles O7: the fetch, the decoder and the data access, each with its faults in their order. -/
theorem stepOutcomesComeInPriorityOrder : Obligations.StepOutcomesComeInPriorityOrder := by
  intro s hrun
  refine ⟨fun hout => step_of_fetch_error hrun (fetch_outOfRange hout),
    fun hin hmis => step_of_fetch_error hrun (fetch_misaligned hin hmis),
    fun hin hal =>
      ⟨step_of_unsupportedOpcode hrun hin hal, step_of_unsupportedFunct hrun hin hal, fun i hdec => ?_⟩⟩
  have hwf := decode_wf hdec
  rw [step_of_decode hrun hin hal hdec]
  refine ⟨fun a n haccess => ?_, fun a n haccess => ?_, exec_of_accessOk hwf⟩ <;>
    obtain ⟨hmisaligned, houtOfRange, -⟩ := exec_of_access hwf haccess
  · exact hmisaligned
  · exact houtOfRange

end Sys2Proof.Machine
end

section
/-! PROOFS. What an instruction writes and reads (spec/10_state.md R23, R25, spec/20_memory.md R53): memory, registers,
the new `pc`, and on what of the old state these depend. -/

namespace Sys2Proof.Machine

/-! ### What is written (R23, R53) -/

/-- Settles O14: of the four forms a next state has, only that of the stores changes memory, and none its size. -/
theorem onlyStoresWriteMemory : Obligations.OnlyStoresWriteMemory := by
  intro i s t h
  obtain ⟨-, rd, v, p, -, rfl⟩ | ⟨-, -, p, rfl⟩ | ⟨hstore, -, a, v, n, rfl⟩ | ⟨-, -, rfl⟩ := exec_next_cases s t i h
  · simp
  · simp
  · simp [hstore]
  · simp

/-- Settles O15: of the four forms a next state has, only the first changes a register, which is `rd`. -/
theorem onlyTheDestinationIsWritten : Obligations.OnlyTheDestinationIsWritten := by
  intro i s t h r hr
  obtain ⟨-, rd, v, p, hdest, rfl⟩ | ⟨-, -, p, rfl⟩ | ⟨-, -, a, v, n, rfl⟩ | ⟨-, -, rfl⟩ := exec_next_cases s t i h
  · exact reg_setReg_other s rd r v (by rintro rfl; exact hr hdest)
  · rfl
  · rfl
  · rfl

/-! ### The new `pc` (R25) -/

/-- A branch whose offset fits its format goes where the table says. -/
theorem branchIf_pc {s t : State} {taken : Bool} {P : Prop} [Decidable P] {imm : Word} (hP : taken = true ↔ P)
    (hfits : immFitsB imm = true) (h : branchIf taken imm s = .next t) : t.pc = branchPc s (decide P) imm := by
  obtain ⟨t', ht', hwrites⟩ := branchIf_next s taken imm
  rw [h] at ht'
  cases ht'
  simp only [hwrites.pc, branchPc, hP, branchOffset_eq imm hfits, decide_eq_true_eq]

/-- Settles O17: each instruction's own arm of the table. -/
theorem pcIsUpdatedByTheTable : Obligations.PcIsUpdatedByTheTable := by
  intro i s t hwf h
  cases i with
  | jal rd imm =>
    cases h
    exact congrArg (s.pc + ·) (jalOffset_eq imm hwf)
  | jalr rd funct3 rs1 imm =>
    cases h
    exact congrArg clearBit0 (effAddr_eq_baseOffset s rs1 hwf)
  | beq => exact branchIf_pc beq_iff_eq hwf h
  | bne => exact branchIf_pc bne_iff_ne hwf h
  | blt => exact branchIf_pc (ltSigned_iff _ _) hwf h
  | bge => exact branchIf_pc (not_ltSigned_iff _ _) hwf h
  | bltu => exact branchIf_pc (ltUnsigned_iff _ _) hwf h
  | bgeu => exact branchIf_pc (not_ltUnsigned_iff _ _) hwf h
  | lb | lh | lw | lbu | lhu =>
    simp only [exec, execLb, execLh, execLw, execLbu, execLhu] at h
    obtain ⟨v, rfl⟩ := loadOp_next_cases s t _ _ _ _ _ h
    rfl
  | sb | sh | sw =>
    simp only [exec, execSb, execSh, execSw] at h
    obtain ⟨-, -, rfl⟩ := storeOp_next_cases s t _ _ _ _ h
    rfl
  | _ =>
    cases h
    rfl

/-! ### An even `pc` stays even (R247) -/

theorem even_iff_getLsbD (v : Word) : v.toNat % 2 = 0 ↔ v.getLsbD 0 = false := by
  simp [BitVec.getLsbD, Nat.testBit_zero]

theorem add_even {a b : Word} (ha : a.toNat % 2 = 0) (hb : b.toNat % 2 = 0) : (a + b).toNat % 2 = 0 := by
  rw [BitVec.toNat_add]
  omega

/-- The offset of a jump or branch is even when its immediate is (R81, R84). -/
theorem signExtend_even {n : Nat} {imm : Word} (hn : 0 < n) (h0 : imm.getLsbD 0 = false) :
    ((imm.extractLsb' 0 n).signExtend 32).toNat % 2 = 0 := by
  rw [even_iff_getLsbD, BitVec.getLsbD_signExtend, if_pos hn, BitVec.getLsbD_extractLsb', Nat.zero_add, h0]
  simp

theorem clearBit0_even (v : Word) : (clearBit0 v).toNat % 2 = 0 := by
  rw [even_iff_getLsbD, clearBit0, BitVec.getLsbD_and]
  simp

section
variable {s : State} (hs : s.pc.toNat % 2 = 0)
include hs

theorem nextPc_even : (s.pc + 4).toNat % 2 = 0 := add_even hs rfl

theorem branchPc_even {taken : Bool} {imm : Word} (hfits : immFitsB imm = true) :
    (branchPc s taken imm).toNat % 2 = 0 := by
  unfold branchPc
  split
  · exact add_even hs (signExtend_even (by decide) (immFitsB_bits imm hfits 0 (.inl rfl)))
  · exact nextPc_even hs

theorem newPc_even {i : Instr} (hwf : i.wf = true) : (i.newPc s).toNat % 2 = 0 := by
  cases i with
  | jal rd imm => exact add_even hs (signExtend_even (by decide) (immFitsJ_bits imm hwf 0 (.inl rfl)))
  | jalr => exact clearBit0_even _
  | beq | bne | blt | bge | bltu | bgeu => exact branchPc_even hs hwf
  | ecall => exact hs
  | _ => exact nextPc_even hs

end

/-- Settles O13: the step runs a decoded, so well-formed, instruction, and its new `pc` is the table's. -/
theorem stepLeavesAnEvenPc : Obligations.StepLeavesAnEvenPc := by
  intro s t hs hstep
  obtain ⟨-, rfl⟩ | ⟨-, w, i, -, hdec, hexec⟩ := step_next_cases s t hstep
  · exact hs
  · rw [pcIsUpdatedByTheTable i s t (decode_wf hdec) hexec]
    exact newPc_even hs (decode_wf hdec)

/-! ### What the outcome depends on (R23) -/

/-- Two states that agree but for the registers. -/
structure SameButRegs (s u : State) : Prop where
  pc : s.pc = u.pc
  mem : s.mem = u.mem
  halted : s.halted = u.halted

/-- The same fault, or next states that agree but for the registers other than `d`. -/
def OutcomesAgree (d : Option RegIdx) : Result → Result → Prop
  | .next t, .next v => t.pc = v.pc ∧ t.mem = v.mem ∧ t.halted = v.halted ∧ ∀ rd, d = some rd → t.reg rd = v.reg rd
  | .fault f, .fault g => f = g
  | _, _ => False

section
variable {s u : State} (h : SameButRegs s u)
include h

/-- A register written with one value in both states, before equal jumps. -/
theorem setReg_setPc_agree (rd : RegIdx) {v v' p p' : Word} (hv : v = v') (hp : p = p') :
    OutcomesAgree (some rd) (.next ((s.setReg rd v).setPc p)) (.next ((u.setReg rd v').setPc p')) := by
  subst hv hp
  refine ⟨rfl, by simpa using h.mem, by simpa using h.halted, ?_⟩
  rintro r ⟨⟩
  by_cases h0 : rd = 0
  · subst h0
    rfl
  · rw [setPc_reg, setPc_reg, reg_setReg_same s rd v h0, reg_setReg_same u rd v h0]

theorem setPc_agree {p p' : Word} (hp : p = p') : OutcomesAgree none (.next (s.setPc p)) (.next (u.setPc p')) :=
  ⟨hp, h.mem, h.halted, nofun⟩

theorem nextPc_agree : s.nextPc = u.nextPc := congrArg (· + 4) h.pc

theorem writeRd_agree (rd : RegIdx) {v v' : Word} (hv : v = v') :
    OutcomesAgree (some rd) (writeRd rd v s) (writeRd rd v' u) := setReg_setPc_agree h rd hv (nextPc_agree h)

theorem linkAndJump_agree (rd : RegIdx) {p p' : Word} (hp : p = p') :
    OutcomesAgree (some rd) (linkAndJump rd p s) (linkAndJump rd p' u) := setReg_setPc_agree h rd (nextPc_agree h) hp

theorem continueNext_agree : OutcomesAgree none (continueNext s) (continueNext u) := setPc_agree h (nextPc_agree h)

theorem branchIf_agree {taken taken' : Bool} (ht : taken = taken') (imm : Word) :
    OutcomesAgree none (branchIf taken imm s) (branchIf taken' imm u) := by
  subst ht
  cases taken with
  | false => exact continueNext_agree h
  | true => exact setPc_agree h (by rw [h.pc])

theorem loadOp_agree (n : Width) (ext : Word → Word) (rd rs1 : RegIdx) (imm : Word) (h1 : s.reg rs1 = u.reg rs1) :
    OutcomesAgree (some rd) (loadOp n ext rd rs1 imm s) (loadOp n ext rd rs1 imm u) := by
  have haddr : effAddr s rs1 imm = effAddr u rs1 imm := congrArg (· + imm12 imm) h1
  rw [loadOp_eq s n ext rd rs1 imm _ haddr, loadOp_eq u n ext rd rs1 imm _ rfl, h.mem]
  split
  · split
    · exact writeRd_agree h rd rfl
    · rfl
  · rfl

theorem storeOp_agree (n : Width) (rs1 rs2 : RegIdx) (imm : Word) (h1 : s.reg rs1 = u.reg rs1)
    (h2 : s.reg rs2 = u.reg rs2) : OutcomesAgree none (storeOp n rs1 rs2 imm s) (storeOp n rs1 rs2 imm u) := by
  have haddr : effAddr s rs1 imm = effAddr u rs1 imm := congrArg (· + imm12 imm) h1
  rw [storeOp_eq s n rs1 rs2 imm _ haddr, storeOp_eq u n rs1 rs2 imm _ rfl, h.mem, h2, h.pc]
  split
  · split
    · exact ⟨rfl, rfl, h.halted, nofun⟩
    · rfl
  · rfl

/-- Each operation uses the source registers in values that are then equal. -/
theorem exec_agree (i : Instr) (hsources : ∀ r ∈ i.sources, s.reg r = u.reg r) :
    OutcomesAgree i.dest (exec i s) (exec i u) := by
  cases i with
  | lui rd => exact writeRd_agree h rd rfl
  | auipc rd imm => exact writeRd_agree h rd (by rw [h.pc])
  | jal rd imm => exact linkAndJump_agree h rd (by rw [h.pc])
  | jalr rd funct3 rs1 imm =>
    have h1 : s.reg rs1 = u.reg rs1 := hsources rs1 (by simp [Instr.sources])
    exact linkAndJump_agree h rd (by rw [effAddr, h1]; rfl)
  | beq rs1 rs2 imm | bne rs1 rs2 imm | blt rs1 rs2 imm | bge rs1 rs2 imm | bltu rs1 rs2 imm | bgeu rs1 rs2 imm =>
    have h1 : s.reg rs1 = u.reg rs1 := hsources rs1 (by simp [Instr.sources])
    have h2 : s.reg rs2 = u.reg rs2 := hsources rs2 (by simp [Instr.sources])
    exact branchIf_agree h (by rw [h1, h2]) imm
  | lb rd rs1 imm | lh rd rs1 imm | lw rd rs1 imm | lbu rd rs1 imm | lhu rd rs1 imm =>
    have h1 : s.reg rs1 = u.reg rs1 := hsources rs1 (by simp [Instr.sources])
    simp only [exec, execLb, execLh, execLw, execLbu, execLhu]
    exact loadOp_agree h _ _ rd rs1 imm h1
  | sb rs1 rs2 imm | sh rs1 rs2 imm | sw rs1 rs2 imm =>
    have h1 : s.reg rs1 = u.reg rs1 := hsources rs1 (by simp [Instr.sources])
    have h2 : s.reg rs2 = u.reg rs2 := hsources rs2 (by simp [Instr.sources])
    simp only [exec, execSb, execSh, execSw]
    exact storeOp_agree h _ rs1 rs2 imm h1 h2
  | addi rd rs1 | slti rd rs1 | sltiu rd rs1 | xori rd rs1 | ori rd rs1 | andi rd rs1 | slli rd rs1 | srli rd rs1
  | srai rd rs1 =>
    have h1 : s.reg rs1 = u.reg rs1 := hsources rs1 (by simp [Instr.sources])
    exact writeRd_agree h rd (by rw [h1])
  | add rd rs1 rs2 | sub rd rs1 rs2 | sll rd rs1 rs2 | slt rd rs1 rs2 | sltu rd rs1 rs2 | xor rd rs1 rs2
  | srl rd rs1 rs2 | sra rd rs1 rs2 | or rd rs1 rs2 | and rd rs1 rs2 =>
    have h1 : s.reg rs1 = u.reg rs1 := hsources rs1 (by simp [Instr.sources])
    have h2 : s.reg rs2 = u.reg rs2 := hsources rs2 (by simp [Instr.sources])
    exact writeRd_agree h rd (by rw [h1, h2])
  | ecall =>
    have h10 : s.reg 10 = u.reg 10 := hsources 10 (by simp [Instr.sources])
    exact ⟨h.pc, h.mem, congrArg some h10, nofun⟩
  | _ => exact continueNext_agree h

end

/-- Settles O16: of a state, the instructions use `pc`, memory and their source registers only. -/
theorem outcomeDependsOnNamedRegistersOnly : Obligations.OutcomeDependsOnNamedRegistersOnly :=
  fun i _ _ hpc hmem hhalted hsources => exec_agree ⟨hpc, hmem, hhalted⟩ i hsources

end Sys2Proof.Machine
end
